-- ==== Sys2Proof/Word.lean ====
section
/-! DEFINITION. The word types of the block: bytes, 16-bit and 32-bit values, port addresses (R5, R7). -/

namespace Sys2Proof

/-- A byte of a packet, of IN or of OUT; also one 8-bit operand field of a command (R60, R62). -/
abbrev Byte := BitVec 8

/-- A 16-bit header field (R19). -/
abbrev Half := BitVec 16

/-- A 32-bit value: a command word, F, AGE, or the data of one host transaction (R5). -/
abbrev Word := BitVec 32

/-- A host-port address: one of the 1024 word addresses 0x000 to 0x3FF (R5, R40). -/
abbrev PortAddr := BitVec 10

end Sys2Proof
end

