-- ==== Sys2Proof/Syntax.lean ====
section
/-! DEFINITION. The syntax of the block: its eleven commands, the named registers of its host port, the events that
reach the port, and the lines of its assembly language. -/

namespace Sys2Proof

/-- A command, one constructor per row of R63. Every operand is an 8-bit field of the command word (R62), so every
term is a command the encoding can hold. -/
inductive Instr where
  /-- R92: report success and do nothing else. -/
  | nop
  /-- R73: load F from 4 big-endian bytes of IN at `off`. -/
  | fdec (off : Byte)
  /-- R74: append F to OUT as 4 big-endian bytes. -/
  | fenc
  /-- R79: append the wide-byte form of `cnt` bytes of IN at `off`. -/
  | wenc (off cnt : Byte)
  /-- R80: append the characters of `cnt` wide bytes of IN at `off`. -/
  | wdec (off cnt : Byte)
  /-- R86: append the fixed header region built from HDR. -/
  | hpack
  /-- R87: load HDR from the 34 bytes of IN at `off`. -/
  | hunpack (off : Byte)
  /-- R88: pack a charge percent and a tolerance percent into PCT. -/
  | batset (chg tol : Byte)
  /-- R89: increment SEQ modulo 65536. -/
  | seqinc
  /-- R93: append one byte to OUT. -/
  | emit8 (imm : Byte)
  /-- R94: restart the output buffer. -/
  | oclr
deriving DecidableEq, Repr

/-- The named registers of the host port, in the order of R28's table. -/
inductive Reg where
  | cmd | status | ctrl | f | inLen | outLen
  | tver | tag0 | tag1 | ap0 | ap1 | seq | cver | pwr | chan | rcls | burst
  | sysid | syslen | ptype | batid | batlen | pct | days | age
deriving DecidableEq, Repr

/-- What can happen at the block's port in one step: a host transaction of R42, or the reset input of R110. -/
inductive HostEvent where
  /-- `HostRead(a)`. -/
  | read (a : PortAddr)
  /-- `HostWrite(a, v)`. -/
  | write (a : PortAddr) (v : Word)
  /-- RST is asserted between two transactions. -/
  | rst
deriving DecidableEq, Repr

/-- The place a `write` or `read` line of the assembly language names (R69): a register of R28, a byte of a window,
or a port address as a number (the form of the vectors P-15 and P-16; log 9). -/
inductive AsmPlace where
  | reg (r : Reg)
  | inByte (i : Nat)
  | outByte (i : Nat)
  | addr (a : Nat)
deriving DecidableEq, Repr

/-- A line of the assembly language (R69) or one of its pseudo-instructions (R70). An operand is a natural as it is
written: whether it is in range is for `AsmLine.wf` to say. -/
inductive AsmLine where
  | blank
  | nop
  | fdec (off : Nat)
  | fenc
  | wenc (off cnt : Nat)
  | wdec (off cnt : Nat)
  | hpack
  | hunpack (off : Nat)
  | batset (chg tol : Nat)
  | seqinc
  | emit8 (imm : Nat)
  | oclr
  | emit16 (v : Nat)
  | emit32 (v : Nat)
  | fcopy (off : Nat)
  | newpkt
  | write (p : AsmPlace) (v : Nat)
  | read (p : AsmPlace)
  | load (bytes : List Nat)
deriving DecidableEq, Repr

end Sys2Proof
end

