-- ==== Sys2Proof/Decode.lean ====
section
/-! DEFINITION. The decoder of R68, total on every 32-bit word, and the encoder written from the formats of R61 and
the opcode map of R63. -/

namespace Sys2Proof

/-- `OPC = w[31:24]` (R60). -/
def opc (w : Word) : Byte := w.extractLsb' 24 8

/-- `FA = w[23:16]` (R60). -/
def fa (w : Word) : Byte := w.extractLsb' 16 8

/-- `FB = w[15:8]` (R60). -/
def fb (w : Word) : Byte := w.extractLsb' 8 8

/-- `FC = w[7:0]` (R60). -/
def fc (w : Word) : Byte := w.extractLsb' 0 8

/-- The command word with the four given fields (R60). -/
def wordOf (o a b c : Byte) : Word := o ++ a ++ b ++ c

/-- Why a word is no command. Both reasons raise the same code, ILLEGAL (R95). -/
inductive Illegal where
  /-- R65: the opcode is not in R63's table. -/
  | unassignedOpcode (o : Byte)
  /-- R64: the opcode is assigned and a reserved field of its format is not zero. -/
  | reservedField (o : Byte)
deriving DecidableEq, Repr

/-- What a word decodes to (R68): a command, or ILLEGAL with the reason. -/
inductive Decoded where
  | command (i : Instr)
  | illegal (why : Illegal)
deriving DecidableEq, Repr

/-- A format's check (R64): the command if the reserved fields are zero, else ILLEGAL. -/
def ifReservedZero (ok : Bool) (w : Word) (i : Instr) : Decoded :=
  if ok then .command i else .illegal (.reservedField (opc w))

/-- Format Z (R61): every operand field is reserved. -/
def formatZ (w : Word) (i : Instr) : Decoded :=
  ifReservedZero (fa w == 0#8 && fb w == 0#8 && fc w == 0#8) w i

/-- Format O (R61): `OFF = FA`, the rest reserved. -/
def formatO (w : Word) (mk : Byte → Instr) : Decoded :=
  ifReservedZero (fb w == 0#8 && fc w == 0#8) w (mk (fa w))

/-- Format M (R61): `OFF = FA`, `CNT = FB`, the rest reserved. -/
def formatM (w : Word) (mk : Byte → Byte → Instr) : Decoded :=
  ifReservedZero (fc w == 0#8) w (mk (fa w) (fb w))

/-- Format B (R61): `CHG = FB`, `TOL = FC`, the rest reserved. -/
def formatB (w : Word) (mk : Byte → Byte → Instr) : Decoded :=
  ifReservedZero (fa w == 0#8) w (mk (fb w) (fc w))

/-- Format I (R61): `IMM8 = FC`, the rest reserved. -/
def formatI (w : Word) (mk : Byte → Instr) : Decoded :=
  ifReservedZero (fa w == 0#8 && fb w == 0#8) w (mk (fc w))

/-- The decode function of R68. -/
def decode (w : Word) : Decoded :=
  if opc w = 0x00#8 then formatZ w .nop
  else if opc w = 0x01#8 then formatO w .fdec
  else if opc w = 0x02#8 then formatZ w .fenc
  else if opc w = 0x10#8 then formatM w .wenc
  else if opc w = 0x11#8 then formatM w .wdec
  else if opc w = 0x20#8 then formatZ w .hpack
  else if opc w = 0x21#8 then formatO w .hunpack
  else if opc w = 0x22#8 then formatB w .batset
  else if opc w = 0x23#8 then formatZ w .seqinc
  else if opc w = 0x30#8 then formatI w .emit8
  else if opc w = 0x31#8 then formatZ w .oclr
  else .illegal (.unassignedOpcode (opc w))

/-- The command a word decodes to, none where it is ILLEGAL. -/
def Decoded.instr? : Decoded → Option Instr
  | .command i => some i
  | .illegal _ => none

/-- The instruction the decoder reads from the bits `w` of a table row of `nbits` bits. A command is one 32-bit word
(R59), so a row of more bits holds none. -/
def decodeTableWord (nbits w : Nat) : Option Instr :=
  if nbits ≤ 32 then (decode (BitVec.ofNat 32 (w % 2 ^ nbits))).instr? else none

/-- The word of a command, from R61 and R63. -/
def encode : Instr → Word
  | .nop => wordOf 0x00#8 0#8 0#8 0#8
  | .fdec off => wordOf 0x01#8 off 0#8 0#8
  | .fenc => wordOf 0x02#8 0#8 0#8 0#8
  | .wenc off cnt => wordOf 0x10#8 off cnt 0#8
  | .wdec off cnt => wordOf 0x11#8 off cnt 0#8
  | .hpack => wordOf 0x20#8 0#8 0#8 0#8
  | .hunpack off => wordOf 0x21#8 off 0#8 0#8
  | .batset chg tol => wordOf 0x22#8 0#8 chg tol
  | .seqinc => wordOf 0x23#8 0#8 0#8 0#8
  | .emit8 imm => wordOf 0x30#8 0#8 0#8 imm
  | .oclr => wordOf 0x31#8 0#8 0#8 0#8

/-- A row of the opcode map (R63): the bits the mask keeps, and the value they must have. -/
structure OpRow where
  mnemonic : String
  pattern : Word
  mask : Word
deriving DecidableEq, Repr

/-- The row of R63 a command belongs to. -/
def Instr.row : Instr → OpRow
  | .nop => ⟨"NOP", 0x00000000#32, 0xFFFFFFFF#32⟩
  | .fdec _ => ⟨"FDEC", 0x01000000#32, 0xFF00FFFF#32⟩
  | .fenc => ⟨"FENC", 0x02000000#32, 0xFFFFFFFF#32⟩
  | .wenc _ _ => ⟨"WENC", 0x10000000#32, 0xFF0000FF#32⟩
  | .wdec _ _ => ⟨"WDEC", 0x11000000#32, 0xFF0000FF#32⟩
  | .hpack => ⟨"HPACK", 0x20000000#32, 0xFFFFFFFF#32⟩
  | .hunpack _ => ⟨"HUNPACK", 0x21000000#32, 0xFF00FFFF#32⟩
  | .batset _ _ => ⟨"BATSET", 0x22000000#32, 0xFFFF0000#32⟩
  | .seqinc => ⟨"SEQINC", 0x23000000#32, 0xFFFFFFFF#32⟩
  | .emit8 _ => ⟨"EMIT8", 0x30000000#32, 0xFFFFFF00#32⟩
  | .oclr => ⟨"OCLR", 0x31000000#32, 0xFFFFFFFF#32⟩

/-- The opcode map of R63, one row per command. -/
def opcodeMap : List OpRow :=
  [ Instr.nop.row, (Instr.fdec 0#8).row, Instr.fenc.row, (Instr.wenc 0#8 0#8).row, (Instr.wdec 0#8 0#8).row,
    Instr.hpack.row, (Instr.hunpack 0#8).row, (Instr.batset 0#8 0#8).row, Instr.seqinc.row,
    (Instr.emit8 0#8).row, Instr.oclr.row ]

/-- `w` is selected by the row iff `(w & mask) == match` (R63). -/
def OpRow.selects (r : OpRow) (w : Word) : Bool := (w &&& r.mask) == r.pattern

end Sys2Proof
end

