-- ==== Sys2Proof/Config.lean ====
section
/-! DEFINITION. The implementation parameters of R5. The two OPEN ones are opaque constants: nothing in Lean knows
their value, so every statement about the model holds for every value of them. -/

namespace Sys2Proof

/-- `IN_SIZE`, the bytes of the input buffer (R5). -/
def Config.inSize : Nat := 256

/-- `OUT_SIZE`, the bytes of the output buffer (R5). -/
def Config.outSize : Nat := 256

/-- `HDR_N`, the bytes of the fixed header region (R5, R85). -/
def Config.hdrBytes : Nat := 34

/-- `P_SYSID`, the reset value of the system group id: OPEN in R5 and R6. DESIGN CHOICE (log 1): an opaque constant. -/
opaque Config.pSysid : Byte

/-- `P_BATID`, the reset value of the battery group id: OPEN in R5 and R6. DESIGN CHOICE (log 1): an opaque constant. -/
opaque Config.pBatid : Byte

end Sys2Proof
end

