-- ==== Sys2Proof/Machine/State.lean ====
section
/-! DEFINITION. The state of the block: R15's tuple as plain data, with the two fields of the model that hold the
host's side of the port, the result codes of R95, and the reset state of R111. -/

namespace Sys2Proof.Machine

/-- A 6-byte hardware address in wire order (R20): `b0` is index 0. It has no numeric interpretation. -/
structure HwAddr where
  b0 : Byte
  b1 : Byte
  b2 : Byte
  b3 : Byte
  b4 : Byte
  b5 : Byte
deriving DecidableEq, Repr

/-- The header register file (R19), one register per field of the fixed header region, in wire order. -/
structure Hdr where
  /-- Transport version. -/
  tver : Half
  /-- Tag hardware address. -/
  tag : HwAddr
  /-- Access-point hardware address. -/
  ap : HwAddr
  /-- Sequence number. -/
  seq : Half
  /-- CCX header version. -/
  cver : Byte
  /-- Transmit power. -/
  pwr : Byte
  /-- Wifi channel. -/
  chan : Byte
  /-- Regulatory class. -/
  rcls : Byte
  /-- Burst count. -/
  burst : Byte
  /-- System group id. -/
  sysid : Byte
  /-- System group length byte, emitted as stored (R22). -/
  syslen : Byte
  /-- Product type. -/
  ptype : Half
  /-- Battery group id. -/
  batid : Byte
  /-- Battery group length byte, emitted as stored (R22). -/
  batlen : Byte
  /-- Packed battery percent byte (R21). -/
  pct : Byte
  /-- Days remaining. -/
  days : Half
  /-- Age in days. -/
  age : Word
deriving DecidableEq, Repr

/-- STATUS (R26). The reserved bits read 0 and have no storage. -/
structure Status where
  /-- Result code of the most recent command. -/
  err : BitVec 4
  /-- Sticky: some command ended with ERR ≠ 0. -/
  anyErr : Bool
  /-- Sticky: a WDEC in compatible mode dropped its last byte (R81). -/
  oddDrop : Bool
deriving DecidableEq, Repr

/-- CTRL (R27). The reserved bits read 0 and have no storage. -/
structure Ctrl where
  /-- false: strict mode; true: compatible mode. -/
  oddMode : Bool
deriving DecidableEq, Repr

/-- The contents of IN or OUT: (index, byte) pairs with indices strictly rising, none holding 0x00, which is what an
unlisted index holds (R111: both buffers reset to 0x00; log 8). -/
abbrev Memory := List Host.Cell

/-- A natural in 0..256: the type R15 gives IN_LEN and OUT_LEN. -/
abbrev BufLen := Fin 257

/-- The result codes of R95. -/
inductive ResultCode where
  | ok | trunc | oddlen | ovf | illegal
deriving DecidableEq, Repr

/-- R15's tuple, then the model's own two fields. -/
structure State where
  /-- The last command word written (R25, R35). -/
  cmd : Word
  status : Status
  ctrl : Ctrl
  /-- The float register: a 32-bit pattern (R18). -/
  f : Word
  /-- The input buffer IN (R23). -/
  inBuf : Memory
  /-- IN_LEN: how many bytes of IN are valid (R23). -/
  inLen : BufLen
  /-- The output buffer OUT (R24). -/
  outBuf : Memory
  /-- OUT_LEN: how many bytes of OUT have been produced (R24). -/
  outLen : BufLen
  hdr : Hdr
  /-- The MODEL's: the host events still to come, the next one first (DESIGN CHOICE, log 2). -/
  pending : List HostEvent
  /-- The MODEL's: the values HostRead has returned, oldest first (DESIGN CHOICE, log 3). -/
  replies : List Word
deriving DecidableEq, Repr

/-- The faults of the machine: none. "A host transaction itself never fails" (R103), "The block never halts, stops or
waits by itself: every state accepts every transaction" (R118), and a failed command is recorded in STATUS (R97).
So nothing raises a fault, and leaving the type without a constructor is safe (log 6). -/
inductive Fault
deriving DecidableEq, Repr

/-- The refusals of the machine. -/
inductive Refusal where
  /-- An instruction without a meaning would be refused so, by its arm of `exec`. Safe: the run stops. No arm raises
  it: every command of R63 has its meaning. -/
  | notModelled (mnemonic : String)
deriving DecidableEq, Repr

/-- What a transaction or a command answers. -/
abbrev Result := Host.Outcome State Fault Refusal

/-- The HDR registers of `ResetState(P_SYSID, P_BATID)` (R111). -/
def Hdr.resetWith (pSysid pBatid : Byte) : Hdr where
  tver := 0x0000#16
  tag := ⟨0#8, 0#8, 0#8, 0#8, 0#8, 0#8⟩
  ap := ⟨0#8, 0#8, 0#8, 0#8, 0#8, 0#8⟩
  seq := 0x0000#16
  cver := 0x00#8
  pwr := 17#8
  chan := 1#8
  rcls := 0#8
  burst := 3#8
  sysid := pSysid
  syslen := 2#8
  ptype := 0x0000#16
  batid := pBatid
  batlen := 7#8
  pct := 0x41#8
  days := 100#16
  age := 10#32

/-- `ResetState(P_SYSID, P_BATID)` (R111), with no host event to come and none answered (logs 2 and 3). -/
def State.resetWith (pSysid pBatid : Byte) : State where
  cmd := 0x00000000#32
  status := ⟨0#4, false, false⟩
  ctrl := ⟨false⟩
  f := 0x00000000#32
  inBuf := []
  inLen := 0
  outBuf := []
  outLen := 0
  hdr := Hdr.resetWith pSysid pBatid
  pending := []
  replies := []

/-- The machine right after reset (R111), for the parameters of the implementation at hand (R6). -/
def State.reset : State := State.resetWith Config.pSysid Config.pBatid

/-! The named updates of one register or buffer each. `Laws/State.lean` says what each one changes. -/

def State.setCmd (s : State) (v : Word) : State := { s with cmd := v }
def State.setStatus (s : State) (v : Status) : State := { s with status := v }
def State.setCtrl (s : State) (v : Ctrl) : State := { s with ctrl := v }
def State.setF (s : State) (v : Word) : State := { s with f := v }
def State.setIn (s : State) (m : Memory) : State := { s with inBuf := m }
def State.setInLen (s : State) (n : BufLen) : State := { s with inLen := n }
def State.setOut (s : State) (m : Memory) (n : BufLen) : State := { s with outBuf := m, outLen := n }
def State.setHdr (s : State) (h : Hdr) : State := { s with hdr := h }
def State.setPending (s : State) (es : List HostEvent) : State := { s with pending := es }
def State.setReplies (s : State) (vs : List Word) : State := { s with replies := vs }

end Sys2Proof.Machine
end

