-- ==== Sys2Proof/Machine/Flags.lean ====
section
/-! DEFINITION. The flags: STATUS as the host reads and writes it, and the epilogue every command ends with. The block
has no other flag and no condition code (R38). -/

namespace Sys2Proof.Machine

/-- The numeric value of a result code in STATUS.ERR (R95). -/
def ResultCode.code : ResultCode → BitVec 4
  | .ok => 0#4
  | .trunc => 1#4
  | .oddlen => 2#4
  | .ovf => 3#4
  | .illegal => 4#4

/-- The 32-bit value a host read of STATUS returns: ERR in bits 3:0, ANYERR in bit 8, ODDDROP in bit 9 (R33). -/
def Status.word (st : Status) : Word :=
  (BitVec.ofBool st.oddDrop ++ BitVec.ofBool st.anyErr ++ 0#4 ++ st.err : BitVec 10).setWidth 32

/-- A host write of `v` to STATUS (R33): bit 8 clears ANYERR, bit 9 clears ODDDROP, and nothing else changes. -/
def Status.writeOneToClear (st : Status) (v : Word) : Status :=
  { st with anyErr := st.anyErr && !v.getLsbD 8, oddDrop := st.oddDrop && !v.getLsbD 9 }

/-- The epilogue on STATUS (R97): ERR takes the code, and ANYERR is set when it is not OK. -/
def Status.afterCommand (st : Status) (e : ResultCode) : Status :=
  { st with err := e.code, anyErr := st.anyErr || e.code != 0#4 }

/-- The common epilogue of every command (R97). -/
def State.epilogue (s : State) (e : ResultCode) : State := s.setStatus (s.status.afterCommand e)

/-- `STATUS.ODDDROP <- 1`, the flag of a dropped odd byte (R80, R81). -/
def State.markOddDrop (s : State) : State := s.setStatus { s.status with oddDrop := true }

end Sys2Proof.Machine
end

