-- ==== Sys2Proof/Machine/Ops.lean ====
section
/-! DEFINITION. The named operations: big-endian assembly of bytes, one byte and runs of bytes of a buffer, the append
to OUT, and the two ways a command ends. -/

namespace Sys2Proof.Machine

/-! ### Byte order (R8, R45, R46) -/

/-- `be16(b0, b1) = b0 ++ b1` (R8). -/
def be16 (b0 b1 : Byte) : Half := b0 ++ b1

/-- `be32(b0, b1, b2, b3) = b0 ++ b1 ++ b2 ++ b3` (R8). -/
def be32 (b0 b1 b2 b3 : Byte) : Word := b0 ++ b1 ++ b2 ++ b3

/-- `bytes_be16(v)` (R8): the most significant byte first. -/
def bytesBe16 (v : Half) : List Byte := [v.extractLsb' 8 8, v.extractLsb' 0 8]

/-- `bytes_be32(v)` (R8): the most significant byte first. -/
def bytesBe32 (v : Word) : List Byte :=
  [v.extractLsb' 24 8, v.extractLsb' 16 8, v.extractLsb' 8 8, v.extractLsb' 0 8]

/-- The bytes of a hardware address in index order (R46). -/
def HwAddr.bytes (a : HwAddr) : List Byte := [a.b0, a.b1, a.b2, a.b3, a.b4, a.b5]

/-! ### Buffers -/

/-- The byte at an index; an unlisted index holds 0x00 (R111, log 8). -/
def Memory.read : Memory → Nat → Byte
  | [], _ => 0#8
  | (k, b) :: m, a => if k = a then b else Memory.read m a

/-- The contents without any entry at an index. -/
def Memory.erase : Memory → Nat → Memory
  | [], _ => []
  | (k, b) :: m, a => if k = a then Memory.erase m a else (k, b) :: Memory.erase m a

/-- Put an entry in front of the first entry with a greater index. -/
def Memory.insert : Memory → Nat → Byte → Memory
  | [], a, v => [(a, v)]
  | (k, b) :: m, a, v => if a < k then (a, v) :: (k, b) :: m else (k, b) :: Memory.insert m a v

/-- Set the byte at an index, keeping the canonical form: writing 0x00, what an unlisted index holds, takes the entry
away (log 8). -/
def Memory.write (m : Memory) (a : Nat) (v : Byte) : Memory :=
  if v = 0#8 then Memory.erase m a else Memory.insert (Memory.erase m a) a v

/-- Set consecutive bytes, the first one at index `a`. -/
def Memory.writeBytes : Memory → Nat → List Byte → Memory
  | m, _, [] => m
  | m, a, b :: bs => Memory.writeBytes (Memory.write m a b) (a + 1) bs

/-- The `n` bytes from index `a` on, in index order. -/
def Memory.readBytes (m : Memory) : Nat → Nat → List Byte
  | _, 0 => []
  | a, n + 1 => Memory.read m a :: Memory.readBytes m (a + 1) n

/-- The listed indices are at least `lo`, strictly rise, and stay below 256; no listed byte is 0x00. -/
def Memory.wfFrom : Nat → Memory → Bool
  | _, [] => true
  | lo, (k, b) :: m => decide (lo ≤ k) && decide (k < 256) && b != 0#8 && Memory.wfFrom (k + 1) m

/-- The canonical form of a buffer's contents (log 8). -/
def Memory.wf (m : Memory) : Bool := Memory.wfFrom 0 m

/-! ### How a command ends -/

/-- `raise e` (R10, R11): the command ends with code `e`, and besides CMD only STATUS changes. This is the block's one
form of taking an exception: no control is transferred, no state is saved and no mode changes (R100), and there is no
return (R101). -/
def raise (e : ResultCode) (s : State) : Result := .next (s.epilogue e)

/-- The command succeeded with the writes made in `s`; the epilogue with code OK follows (R97). -/
def complete (s : State) : Result := .next (s.epilogue .ok)

/-- `OutAppend(bytes)` behind its check (R10, R50): none when the bytes do not fit in OUT, else the state with the
bytes at `OUT[OUT_LEN ..]` and OUT_LEN advanced. -/
def State.outAppend (s : State) (bs : List Byte) : Option State :=
  if h : s.outLen.val + bs.length ≤ 256 then
    some (s.setOut (s.outBuf.writeBytes s.outLen.val bs) ⟨s.outLen.val + bs.length, Nat.lt_succ_of_le h⟩)
  else none

/-- Append and succeed, or raise OVF with nothing written (R50). -/
def appendOrOvf (bs : List Byte) (s : State) : Result :=
  match s.outAppend bs with
  | some t => complete t
  | none => raise .ovf s

end Sys2Proof.Machine
end

