-- ==== Sys2Proof/Machine/Operands.lean ====
section
/-! DEFINITION. The operand forms (R62): an 8-bit field taken as a natural, the input bytes an offset and a count
select, and the check every read of IN makes first (R49). -/

namespace Sys2Proof.Machine

/-- An operand as the natural it stands for: zero-extended, never scaled or sign-extended (R62). -/
def operand (b : Byte) : Nat := b.toNat

/-- `OFF + n <= IN_LEN`, on naturals without wrap (R9, R49). -/
def State.inputHolds (s : State) (off n : Nat) : Bool := decide (off + n ≤ s.inLen.val)

/-- `IN[i]`. -/
def State.inByte (s : State) (i : Nat) : Byte := s.inBuf.read i

/-- `IN[off .. off+n-1]` in index order. -/
def State.inBytes (s : State) (off n : Nat) : List Byte := s.inBuf.readBytes off n

/-- `MemRead(IN, off, 2)` (R10, R46). -/
def State.inBe16 (s : State) (off : Nat) : Half := be16 (s.inByte off) (s.inByte (off + 1))

/-- `MemRead(IN, off, 4)` (R10, R46). -/
def State.inBe32 (s : State) (off : Nat) : Word :=
  be32 (s.inByte off) (s.inByte (off + 1)) (s.inByte (off + 2)) (s.inByte (off + 3))

/-- Six bytes copied from IN in index order (R46). -/
def State.inAddr (s : State) (off : Nat) : HwAddr :=
  ⟨s.inByte off, s.inByte (off + 1), s.inByte (off + 2), s.inByte (off + 3), s.inByte (off + 4), s.inByte (off + 5)⟩

end Sys2Proof.Machine
end

