-- ==== Sys2Proof/Machine/BitField.lean ====
section
/-! DEFINITION. The bit-field unit BFU: the fixed header region (R85), HPACK, HUNPACK, BATSET and SEQINC (R86 to R89),
and the bit views of the packed battery byte (R21). -/

namespace Sys2Proof.Machine

/-- The 34 bytes of the fixed header region in wire order (R85, R86). -/
def Hdr.bytes (h : Hdr) : List Byte :=
  bytesBe16 h.tver ++ h.tag.bytes ++ h.ap.bytes ++ bytesBe16 h.seq
    ++ [h.cver, h.pwr, h.chan, h.rcls, h.burst]
    ++ [h.sysid, h.syslen] ++ bytesBe16 h.ptype
    ++ [h.batid, h.batlen, h.pct] ++ bytesBe16 h.days ++ bytesBe32 h.age

/-- `HPACK` (R86). -/
def execHpack (s : State) : Result := appendOrOvf s.hdr.bytes s

/-- The header fields of the region at `IN[off .. off+33]`, each at its offset of R85 (R87). -/
def State.inHdr (s : State) (off : Nat) : Hdr where
  tver := s.inBe16 off
  tag := s.inAddr (off + 2)
  ap := s.inAddr (off + 8)
  seq := s.inBe16 (off + 14)
  cver := s.inByte (off + 16)
  pwr := s.inByte (off + 17)
  chan := s.inByte (off + 18)
  rcls := s.inByte (off + 19)
  burst := s.inByte (off + 20)
  sysid := s.inByte (off + 21)
  syslen := s.inByte (off + 22)
  ptype := s.inBe16 (off + 23)
  batid := s.inByte (off + 25)
  batlen := s.inByte (off + 26)
  pct := s.inByte (off + 27)
  days := s.inBe16 (off + 28)
  age := s.inBe32 (off + 30)

/-- `HUNPACK off` (R87): no field is validated. -/
def execHunpack (off : Byte) (s : State) : Result :=
  if s.inputHolds (operand off) Config.hdrBytes then complete (s.setHdr (s.inHdr (operand off)))
  else raise .trunc s

/-- The packed percent byte of R88: `((CHG div 10) << 3) | ((TOL div 10) & 0x07)`, its low 8 bits. -/
def packPercent (chg tol : Byte) : Byte :=
  BitVec.ofNat 8 (((operand chg / 10) <<< 3) ||| ((operand tol / 10) &&& 0x07))

/-- `BATSET chg, tol` (R88): no range check. -/
def execBatset (chg tol : Byte) (s : State) : Result :=
  complete (s.setHdr { s.hdr with pct := packPercent chg tol })

/-- `SEQINC` (R89): 16-bit addition wraps modulo 65536. -/
def execSeqinc (s : State) : Result := complete (s.setHdr { s.hdr with seq := s.hdr.seq + 1#16 })

/-- `CHGQ = PCT[7:3]` (R21). -/
def Hdr.chgq (h : Hdr) : BitVec 5 := h.pct.extractLsb' 3 5

/-- `TOLQ = PCT[2:0]` (R21). -/
def Hdr.tolq (h : Hdr) : BitVec 3 := h.pct.extractLsb' 0 3

/-- The charge percent a reader of PCT recovers, `CHGQ * 10` (R21). -/
def Hdr.chargePercent (h : Hdr) : Nat := h.chgq.toNat * 10

/-- The tolerance percent a reader of PCT recovers, `TOLQ * 10` (R21). -/
def Hdr.tolerancePercent (h : Hdr) : Nat := h.tolq.toNat * 10

end Sys2Proof.Machine
end

