-- ==== Sys2Proof/Machine/Float.lean ====
section
/-! DEFINITION. The float decode unit FDU: FDEC and FENC, bit-exact moves between 4 big-endian bytes and F (R73, R74,
R75), and the reader's view of F as an IEEE-754 number (R72). -/

namespace Sys2Proof.Machine

/-- `FDEC off` (R73). -/
def execFdec (off : Byte) (s : State) : Result :=
  if s.inputHolds (operand off) 4 then complete (s.setF (s.inBe32 (operand off))) else raise .trunc s

/-- `FENC` (R74). -/
def execFenc (s : State) : Result := appendOrOvf (bytesBe32 s.f) s

/-- The number a 32-bit pattern denotes (R72). No command computes it. -/
inductive FloatView where
  /-- (−1)^s × infinity. -/
  | infinity (negative : Bool)
  /-- Not a number; quiet iff fraction bit 22 is 1. -/
  | nan (quiet : Bool)
  /-- (−1)^s × m × 2^e. -/
  | finite (negative : Bool) (m : Nat) (e : Int)
deriving DecidableEq, Repr

/-- R72's reading of a pattern, with `s = v[31]`, `e = v[30:23]`, `m = v[22:0]`. PRESUMED (log 10): the spec itself takes
the IEEE-754 layout from general knowledge. It is for readers and test vectors only. -/
def floatView (v : Word) : FloatView :=
  let sign := v.getLsbD 31
  let e := (v.extractLsb' 23 8).toNat
  let m := (v.extractLsb' 0 23).toNat
  if e = 255 then (if m = 0 then .infinity sign else .nan (v.getLsbD 22))
  else if e = 0 then .finite sign m (-149)
  else .finite sign (2 ^ 23 + m) ((e : Int) - 150)

end Sys2Proof.Machine
end

