-- ==== Sys2Proof/Machine/Output.lean ====
section
/-! DEFINITION. The output and control commands NOP, EMIT8 and OCLR (R92, R93, R94). -/

namespace Sys2Proof.Machine

/-- `NOP` (R92). -/
def execNop (s : State) : Result := complete s

/-- `EMIT8 imm` (R93). -/
def execEmit8 (imm : Byte) (s : State) : Result := appendOrOvf [imm] s

/-- `OCLR` (R94): OUT's bytes stay. -/
def execOclr (s : State) : Result := complete (s.setOut s.outBuf 0)

end Sys2Proof.Machine
end

