-- ==== Sys2Proof/Machine/Wide.lean ====
section
/-! DEFINITION. The wide-byte codec unit WCU: the wide form of a character array (R78), WENC (R79) and WDEC (R80). -/

namespace Sys2Proof.Machine

/-- The wide-byte form (R78): 0x00 before each character. -/
def wideEncode : List Byte → List Byte
  | [] => []
  | c :: cs => 0x00#8 :: c :: wideEncode cs

/-- The characters of a wide-byte array: the second byte of each pair (R80, R82). A last byte without a partner is
dropped (R81). -/
def wideDecode : List Byte → List Byte
  | _ :: c :: rest => c :: wideDecode rest
  | _ => []

/-- `WENC off, cnt` (R79). -/
def execWenc (off cnt : Byte) (s : State) : Result :=
  if s.inputHolds (operand off) (operand cnt) then
    appendOrOvf (wideEncode (s.inBytes (operand off) (operand cnt))) s
  else raise .trunc s

/-- CNT is odd (R80). -/
def oddCount (cnt : Byte) : Bool := operand cnt % 2 == 1

/-- `WDEC off, cnt` (R80, R81): the checks TRUNC, ODDLEN, OVF in this order (R99), and ODDDROP set when an odd count
succeeds, which only compatible mode lets it do. -/
def execWdec (off cnt : Byte) (s : State) : Result :=
  if !s.inputHolds (operand off) (operand cnt) then raise .trunc s
  else if oddCount cnt && !s.ctrl.oddMode then raise .oddlen s
  else match s.outAppend (wideDecode (s.inBytes (operand off) (operand cnt))) with
    | none => raise .ovf s
    | some t => complete (if oddCount cnt then t.markOddDrop else t)

end Sys2Proof.Machine
end

