-- ==== Sys2Proof/Machine/Dispatch.lean ====
section
/-! DEFINITION. One arm per command of R63, each one call of its meaning. -/

namespace Sys2Proof.Machine

def exec (i : Instr) (s : State) : Host.Outcome State Fault Refusal :=
  match i with
  | .nop => Sys2Proof.Machine.execNop s
  | .fdec off => Sys2Proof.Machine.execFdec off s
  | .fenc => Sys2Proof.Machine.execFenc s
  | .wenc off cnt => Sys2Proof.Machine.execWenc off cnt s
  | .wdec off cnt => Sys2Proof.Machine.execWdec off cnt s
  | .hpack => Sys2Proof.Machine.execHpack s
  | .hunpack off => Sys2Proof.Machine.execHunpack off s
  | .batset chg tol => Sys2Proof.Machine.execBatset chg tol s
  | .seqinc => Sys2Proof.Machine.execSeqinc s
  | .emit8 imm => Sys2Proof.Machine.execEmit8 imm s
  | .oclr => Sys2Proof.Machine.execOclr s

end Sys2Proof.Machine
end

