-- ==== Sys2Proof/Machine/HostPort.lean ====
section
/-! DEFINITION. The host port: the address map of R28 and R41, and what a host read or write of each register and each
window byte does (R29 to R36, R43, R44), a command's execution apart. -/

namespace Sys2Proof.Machine

/-- The host-port address of a register (R28). -/
def regAddr : Reg → PortAddr
  | .cmd => 0x000#10
  | .status => 0x001#10
  | .ctrl => 0x002#10
  | .f => 0x003#10
  | .inLen => 0x004#10
  | .outLen => 0x005#10
  | .tver => 0x010#10
  | .tag0 => 0x011#10
  | .tag1 => 0x012#10
  | .ap0 => 0x013#10
  | .ap1 => 0x014#10
  | .seq => 0x015#10
  | .cver => 0x016#10
  | .pwr => 0x017#10
  | .chan => 0x018#10
  | .rcls => 0x019#10
  | .burst => 0x01A#10
  | .sysid => 0x01B#10
  | .syslen => 0x01C#10
  | .ptype => 0x01D#10
  | .batid => 0x01E#10
  | .batlen => 0x01F#10
  | .pct => 0x020#10
  | .days => 0x021#10
  | .age => 0x022#10

/-- Every register of R28, in the order of its table. -/
def allRegs : List Reg :=
  [.cmd, .status, .ctrl, .f, .inLen, .outLen, .tver, .tag0, .tag1, .ap0, .ap1, .seq, .cver, .pwr, .chan, .rcls,
    .burst, .sysid, .syslen, .ptype, .batid, .batlen, .pct, .days, .age]

/-- The register at an address, if R28's table has one there. -/
def regAt (a : PortAddr) : Option Reg := allRegs.find? fun r => regAddr r == a

/-- What a port address names (R41). -/
inductive PortTarget where
  | reg (r : Reg)
  | inByte (i : Nat)
  | outByte (i : Nat)
  | unmapped
deriving DecidableEq, Repr

/-- The address decode of R41: register region, IN window, OUT window, or unmapped (R36). -/
def portTarget (a : PortAddr) : PortTarget :=
  if a.toNat < 0x100 then
    match regAt a with
    | some r => .reg r
    | none => .unmapped
  else if a.toNat < 0x200 then .inByte (a.toNat - 0x100)
  else if a.toNat < 0x300 then .outByte (a.toNat - 0x200)
  else .unmapped

/-! ### Reads (R29 to R36, R43, R44) -/

/-- The first view of a hardware address, `be32(x[0..3])` (R29). -/
def HwAddr.view0 (x : HwAddr) : Word := be32 x.b0 x.b1 x.b2 x.b3

/-- The second view, `zext_32(be16(x[4], x[5]))` (R29). -/
def HwAddr.view1 (x : HwAddr) : Word := (be16 x.b4 x.b5).setWidth 32

/-- What a host read of a register returns: the register's value, zero-extended (R28 to R35). -/
def readReg (r : Reg) (s : State) : Word :=
  match r with
  | .cmd => s.cmd
  | .status => s.status.word
  | .ctrl => (BitVec.ofBool s.ctrl.oddMode).setWidth 32
  | .f => s.f
  | .inLen => BitVec.ofNat 32 s.inLen.val
  | .outLen => BitVec.ofNat 32 s.outLen.val
  | .tver => s.hdr.tver.setWidth 32
  | .tag0 => s.hdr.tag.view0
  | .tag1 => s.hdr.tag.view1
  | .ap0 => s.hdr.ap.view0
  | .ap1 => s.hdr.ap.view1
  | .seq => s.hdr.seq.setWidth 32
  | .cver => s.hdr.cver.setWidth 32
  | .pwr => s.hdr.pwr.setWidth 32
  | .chan => s.hdr.chan.setWidth 32
  | .rcls => s.hdr.rcls.setWidth 32
  | .burst => s.hdr.burst.setWidth 32
  | .sysid => s.hdr.sysid.setWidth 32
  | .syslen => s.hdr.syslen.setWidth 32
  | .ptype => s.hdr.ptype.setWidth 32
  | .batid => s.hdr.batid.setWidth 32
  | .batlen => s.hdr.batlen.setWidth 32
  | .pct => s.hdr.pct.setWidth 32
  | .days => s.hdr.days.setWidth 32
  | .age => s.hdr.age

/-- `HostRead(a)` (R42): the value the rule for `a` gives. It changes no state (R52). -/
def hostRead (a : PortAddr) (s : State) : Word :=
  match portTarget a with
  | .reg r => readReg r s
  | .inByte i => (s.inBuf.read i).setWidth 32
  | .outByte i => (s.outBuf.read i).setWidth 32
  | .unmapped => 0#32

/-! ### Writes (R29 to R36, R43, R44) -/

/-- `min(v[8:0], 256)`, the value IN_LEN takes on a host write (R31). -/
def clampLen (v : Word) : BufLen :=
  ⟨min (v.extractLsb' 0 9).toNat 256, Nat.lt_succ_of_le (Nat.min_le_right _ _)⟩

/-- A write of `v` to the first view sets `x[0..3] <- bytes_be32(v)` (R29). -/
def HwAddr.setView0 (x : HwAddr) (v : Word) : HwAddr :=
  { x with b0 := v.extractLsb' 24 8, b1 := v.extractLsb' 16 8, b2 := v.extractLsb' 8 8, b3 := v.extractLsb' 0 8 }

/-- A write of `v` to the second view sets `x[4] <- v[15:8]` and `x[5] <- v[7:0]` (R29). -/
def HwAddr.setView1 (x : HwAddr) (v : Word) : HwAddr :=
  { x with b4 := v.extractLsb' 8 8, b5 := v.extractLsb' 0 8 }

/-- A host write of `v` to a header field register or to a view of TAG or AP (R29, R30): the field takes the low bits
of `v`. The registers that are no header field leave HDR as it is. -/
def Hdr.writeField (h : Hdr) (r : Reg) (v : Word) : Hdr :=
  match r with
  | .tver => { h with tver := v.setWidth 16 }
  | .tag0 => { h with tag := h.tag.setView0 v }
  | .tag1 => { h with tag := h.tag.setView1 v }
  | .ap0 => { h with ap := h.ap.setView0 v }
  | .ap1 => { h with ap := h.ap.setView1 v }
  | .seq => { h with seq := v.setWidth 16 }
  | .cver => { h with cver := v.setWidth 8 }
  | .pwr => { h with pwr := v.setWidth 8 }
  | .chan => { h with chan := v.setWidth 8 }
  | .rcls => { h with rcls := v.setWidth 8 }
  | .burst => { h with burst := v.setWidth 8 }
  | .sysid => { h with sysid := v.setWidth 8 }
  | .syslen => { h with syslen := v.setWidth 8 }
  | .ptype => { h with ptype := v.setWidth 16 }
  | .batid => { h with batid := v.setWidth 8 }
  | .batlen => { h with batlen := v.setWidth 8 }
  | .pct => { h with pct := v.setWidth 8 }
  | .days => { h with days := v.setWidth 16 }
  | .age => { h with age := v }
  | .cmd => h
  | .status => h
  | .ctrl => h
  | .f => h
  | .inLen => h
  | .outLen => h

/-- What a host write of `v` stores in a register (R28 to R35). For CMD this is only `CMD <- v`, the first half of R35;
the execution is `execute`. -/
def writeReg (r : Reg) (v : Word) (s : State) : State :=
  match r with
  | .cmd => s.setCmd v
  | .status => s.setStatus (s.status.writeOneToClear v)
  | .ctrl => s.setCtrl ⟨v.getLsbD 0⟩
  | .f => s.setF v
  | .inLen => s.setInLen (clampLen v)
  | .outLen => s
  | .tver => s.setHdr (s.hdr.writeField .tver v)
  | .tag0 => s.setHdr (s.hdr.writeField .tag0 v)
  | .tag1 => s.setHdr (s.hdr.writeField .tag1 v)
  | .ap0 => s.setHdr (s.hdr.writeField .ap0 v)
  | .ap1 => s.setHdr (s.hdr.writeField .ap1 v)
  | .seq => s.setHdr (s.hdr.writeField .seq v)
  | .cver => s.setHdr (s.hdr.writeField .cver v)
  | .pwr => s.setHdr (s.hdr.writeField .pwr v)
  | .chan => s.setHdr (s.hdr.writeField .chan v)
  | .rcls => s.setHdr (s.hdr.writeField .rcls v)
  | .burst => s.setHdr (s.hdr.writeField .burst v)
  | .sysid => s.setHdr (s.hdr.writeField .sysid v)
  | .syslen => s.setHdr (s.hdr.writeField .syslen v)
  | .ptype => s.setHdr (s.hdr.writeField .ptype v)
  | .batid => s.setHdr (s.hdr.writeField .batid v)
  | .batlen => s.setHdr (s.hdr.writeField .batlen v)
  | .pct => s.setHdr (s.hdr.writeField .pct v)
  | .days => s.setHdr (s.hdr.writeField .days v)
  | .age => s.setHdr (s.hdr.writeField .age v)

/-- A host write to anything but CMD (R29 to R36, R43, R44). -/
def storeAt (p : PortTarget) (v : Word) (s : State) : State :=
  match p with
  | .reg r => writeReg r v s
  | .inByte i => s.setIn (s.inBuf.write i (v.setWidth 8))
  | .outByte _ => s
  | .unmapped => s

end Sys2Proof.Machine
end

