-- ==== Sys2Proof/Machine/Transaction.lean ====
section
/-! DEFINITION. One event at the port: the execution of a command word (R35, R68), HostRead and HostWrite (R42), and the
reset input (R110). -/

namespace Sys2Proof.Machine

/-- `execute(w)` (R68): CMD takes the word, legal or not (R35); then the command runs, or ILLEGAL is raised. -/
def execute (w : Word) (s : State) : Result :=
  match decode w with
  | .command i => exec i (s.setCmd w)
  | .illegal _ => raise .illegal (s.setCmd w)

/-- `HostWrite(a, v)` (R42): a write to CMD executes `v` (R35), any other write stores by its rule. -/
def hostWrite (a : PortAddr) (v : Word) (s : State) : Result :=
  if portTarget a = .reg .cmd then execute v s else .next (storeAt (portTarget a) v s)

/-- RST (R110): the whole state becomes the reset state. The host's side of the port is no state of the block and stays
(log 4). -/
def assertReset (s : State) : State := (State.reset.setPending s.pending).setReplies s.replies

/-- What one event does. A read's value goes to the host, that is to the model's record of replies (log 3). -/
def transact (e : HostEvent) (s : State) : Result :=
  match e with
  | .read a => .next (s.setReplies (s.replies ++ [hostRead a s]))
  | .write a v => hostWrite a v s
  | .rst => .next (assertReset s)

/-- One step of the machine (R2, R42): the next pending event happens. With none pending nothing happens, since the
block starts nothing by itself (log 2). -/
def nextEvent (s : State) : Result :=
  match s.pending with
  | [] => .next s
  | e :: es => transact e (s.setPending es)

end Sys2Proof.Machine
end

