-- ==== Sys2Proof/Machine/Step.lean ====
section
/-! DEFINITION. The step of the machine: one host-port event (R2, R42). -/

namespace Sys2Proof.Machine

/-- One step (R2): one host transaction, or a reset between two transactions (R110). -/
def step (s : State) : Host.Outcome State Fault Refusal := nextEvent s

/-- `s` with `HostWrite(CMD, w)` as the next event, so that the next step runs the command word `w`. The block has no
instruction memory: a command is the data of one write to CMD (R17, R56; log 2). -/
def State.withFetchWord (s : State) (nbits w : Nat) : State :=
  s.setPending (.write 0x000#10 (BitVec.ofNat 32 (w % 2 ^ nbits)) :: s.pending)

end Sys2Proof.Machine
end

