-- ==== Sys2Proof/WellFormed.lean ====
section
/-! DEFINITION. Well-formedness. A term of `Instr` holds 8-bit operands only, so each one is a command of the block
(R62) and no check on it is left to make. What can be ill-formed is an assembly line: "An operand is a decimal or
0x-prefixed hexadecimal natural in 0..255, and an out-of-range operand is an assembly error" (R69). -/

namespace Sys2Proof

/-- An operand of a command line is in 0..255 (R69). -/
def operandFits (n : Nat) : Bool := decide (n < 256)

/-- The place exists: a byte window index is in 0..255 (R43, R44), a port address has 10 bits (R40). DESIGN CHOICE (log 9):
a place that does not exist is an assembly error. -/
def AsmPlace.wf : AsmPlace → Bool
  | .reg _ => true
  | .inByte i => decide (i < 256)
  | .outByte i => decide (i < 256)
  | .addr a => decide (a < 1024)

/-- The line assembles: every operand is in the range R69 and R70 give it, a written value has 32 bits (R42), and a
`load` lists bytes that fit IN (R23). R69 calls an out-of-range operand of a command an error. DESIGN CHOICE (log 9): so
is an out-of-range operand of a pseudo-instruction, an out-of-range written value or listed byte, and a `load` of more
than 256 bytes, while a `load` of none is not. -/
def AsmLine.wf : AsmLine → Bool
  | .blank => true
  | .nop => true
  | .fdec off => operandFits off
  | .fenc => true
  | .wenc off cnt => operandFits off && operandFits cnt
  | .wdec off cnt => operandFits off && operandFits cnt
  | .hpack => true
  | .hunpack off => operandFits off
  | .batset chg tol => operandFits chg && operandFits tol
  | .seqinc => true
  | .emit8 imm => operandFits imm
  | .oclr => true
  | .emit16 v => decide (v < 2 ^ 16)
  | .emit32 v => decide (v < 2 ^ 32)
  | .fcopy off => operandFits off
  | .newpkt => true
  | .write p v => p.wf && decide (v < 2 ^ 32)
  | .read p => p.wf
  | .load bytes => decide (bytes.length ≤ 256) && bytes.all operandFits

end Sys2Proof
end

