-- ==== Sys2Proof/Machine/Assembler.lean ====
section
/-! DEFINITION. The assembly language of R69 and the pseudo-instructions of R70: what host transactions a line stands
for, and how a line of text is read. The block itself never sees this text: a program is a list of host events. -/

namespace Sys2Proof.Machine

/-! ### From lines to host transactions -/

/-- "A command line assembles to one host write of its word to CMD" (R69). -/
def commandWrite (i : Instr) : HostEvent := .write (regAddr .cmd) (encode i)

/-- An operand of a command line as its 8-bit field (R62). -/
def field (n : Nat) : Byte := BitVec.ofNat 8 n

/-- The port address a place names (R28, R41). -/
def placeAddr : AsmPlace → PortAddr
  | .reg r => regAddr r
  | .inByte i => BitVec.ofNat 10 (0x100 + i)
  | .outByte i => BitVec.ofNat 10 (0x200 + i)
  | .addr a => BitVec.ofNat 10 a

/-- The writes of `load IN, <bytes>`: the bytes to `IN[i]`, `IN[i+1]`, ... in order (R69). -/
def loadWrites : Nat → List Nat → List HostEvent
  | _, [] => []
  | i, b :: bs => .write (placeAddr (.inByte i)) (BitVec.ofNat 32 b) :: loadWrites (i + 1) bs

/-- The commands a command line or a pseudo-instruction stands for (R69, R70), its operands in range. DESIGN CHOICE (log
13): every command of an expansion is written, also after one of them fails; R70 leaves that open. So the FENC of an FCOPY
whose FDEC raised TRUNC still runs, and the ERR left is the FENC's. -/
def lineCommands : AsmLine → List Instr
  | .nop => [.nop]
  | .fdec off => [.fdec (field off)]
  | .fenc => [.fenc]
  | .wenc off cnt => [.wenc (field off) (field cnt)]
  | .wdec off cnt => [.wdec (field off) (field cnt)]
  | .hpack => [.hpack]
  | .hunpack off => [.hunpack (field off)]
  | .batset chg tol => [.batset (field chg) (field tol)]
  | .seqinc => [.seqinc]
  | .emit8 imm => [.emit8 (field imm)]
  | .oclr => [.oclr]
  | .emit16 v => (bytesBe16 (BitVec.ofNat 16 v)).map .emit8
  | .emit32 v => (bytesBe32 (BitVec.ofNat 32 v)).map .emit8
  | .fcopy off => [.fdec (field off), .fenc]
  | .newpkt => [.oclr, .hpack]
  | .blank => []
  | .write _ _ => []
  | .read _ => []
  | .load _ => []

/-- The host transactions of a line that is in range (R69, R70): one fixed list, which no result code cuts short (DESIGN
CHOICE, log 13, for the pseudo-instructions). -/
def lineEvents (l : AsmLine) : List HostEvent :=
  match l with
  | .write p v => [.write (placeAddr p) (BitVec.ofNat 32 v)]
  | .read p => [.read (placeAddr p)]
  | .load bytes => loadWrites 0 bytes ++ [.write (regAddr .inLen) (BitVec.ofNat 32 bytes.length)]
  | .blank | .nop | .fdec _ | .fenc | .wenc _ _ | .wdec _ _ | .hpack | .hunpack _ | .batset _ _ | .seqinc | .emit8 _
  | .oclr | .emit16 _ | .emit32 _ | .fcopy _ | .newpkt => (lineCommands l).map commandWrite

/-- The host transactions of a line; none for an assembly error (R69). -/
def assembleLine (l : AsmLine) : Option (List HostEvent) := if l.wf then some (lineEvents l) else none

/-- "A program is a sequence of lines" (R69). DESIGN CHOICE (log 9): one line in error makes the program an error. -/
def assemble : List AsmLine → Option (List HostEvent)
  | [] => some []
  | l :: ls =>
    match assembleLine l, assemble ls with
    | some es, some fs => some (es ++ fs)
    | _, _ => none

/-! ### From text to lines

R69 gives the words of the language and leaves to a reader how a line is split into them. Every such point the model
settles is a DESIGN CHOICE of log 9, named there and at the definition that settles it. -/

/-- The tokens of a line. `bad` is text that is no token. -/
inductive AsmToken where
  | name (s : String)
  | num (n : Nat)
  | text (codes : List Nat)
  | comma
  | lbracket
  | rbracket
  | bad
deriving DecidableEq, Repr

/-- The digit a character stands for, up to 15. -/
def digitOf (c : Char) : Option Nat :=
  let n := c.toNat
  if 48 ≤ n ∧ n ≤ 57 then some (n - 48)
  else if 65 ≤ n ∧ n ≤ 70 then some (n - 55)
  else if 97 ≤ n ∧ n ≤ 102 then some (n - 87)
  else none

/-- The value of digits in a base, none if one is no digit of it. -/
def digitsValue (base : Nat) : Nat → List Char → Option Nat
  | acc, [] => some acc
  | acc, c :: cs =>
    match digitOf c with
    | some d => if d < base then digitsValue base (acc * base + d) cs else none
    | none => none

/-- A decimal or 0x-prefixed hexadecimal natural (R69). DESIGN CHOICE (log 9): hexadecimal digits have either case and
leading zeros are read. -/
def numberValue (cs : List Char) : Option Nat :=
  match cs with
  | '0' :: 'x' :: d :: ds => digitsValue 16 0 (d :: ds)
  | _ => digitsValue 10 0 cs

/-- The token of a run of letters, digits and underscores, given last character first. -/
def wordToken (acc : List Char) : List AsmToken :=
  match acc.reverse with
  | [] => []
  | c :: cs =>
    if c.isDigit then
      match numberValue (c :: cs) with
      | some n => [.num n]
      | none => [.bad]
    else [.name (String.ofList (c :: cs))]

/-- The tokens of the rest of a line: `quoted` inside double quotes, `acc` the run read so far, last character first.
"a comment starting with `;`" is a line of its own in R69. DESIGN CHOICE (log 9): a `;` outside quotes starts a comment
after a command or a host transaction too, spaces and tabs may stand between tokens, and a text's closing quote must
stand on its line. -/
def tokens (quoted : Bool) (acc : List Char) : List Char → List AsmToken
  | [] => if quoted then [.bad] else wordToken acc
  | c :: cs =>
    if quoted then
      if c.toNat = 34 then .text (acc.reverse.map Char.toNat) :: tokens false [] cs else tokens true (c :: acc) cs
    else if c = ';' then wordToken acc
    else if c = ' ' ∨ c.toNat = 9 then wordToken acc ++ tokens false [] cs
    else if c = ',' then wordToken acc ++ .comma :: tokens false [] cs
    else if c = '[' then wordToken acc ++ .lbracket :: tokens false [] cs
    else if c = ']' then wordToken acc ++ .rbracket :: tokens false [] cs
    else if c.toNat = 34 then wordToken acc ++ tokens true [] cs
    else if c.isAlphanum ∨ c = '_' then tokens false (c :: acc) cs
    else [.bad]

/-- The name of a register in the assembly language (R28, R69). -/
def regName : Reg → String
  | .cmd => "CMD"
  | .status => "STATUS"
  | .ctrl => "CTRL"
  | .f => "F"
  | .inLen => "IN_LEN"
  | .outLen => "OUT_LEN"
  | .tver => "TVER"
  | .tag0 => "TAG0"
  | .tag1 => "TAG1"
  | .ap0 => "AP0"
  | .ap1 => "AP1"
  | .seq => "SEQ"
  | .cver => "CVER"
  | .pwr => "PWR"
  | .chan => "CHAN"
  | .rcls => "RCLS"
  | .burst => "BURST"
  | .sysid => "SYSID"
  | .syslen => "SYSLEN"
  | .ptype => "PTYPE"
  | .batid => "BATID"
  | .batlen => "BATLEN"
  | .pct => "PCT"
  | .days => "DAYS"
  | .age => "AGE"

/-- The place tokens name, and the tokens after it. DESIGN CHOICE (log 9): a number stands for a port address. -/
def parsePlace : List AsmToken → Option (AsmPlace × List AsmToken)
  | .num a :: rest => some (.addr a, rest)
  | .name s :: .lbracket :: .num i :: .rbracket :: rest =>
    if s = "IN" then some (.inByte i, rest) else if s = "OUT" then some (.outByte i, rest) else none
  | .name s :: rest => (allRegs.find? fun r => regName r == s).map fun r => (.reg r, rest)
  | _ => none

/-- The bytes of a load (R69). DESIGN CHOICE (log 9): quoted text stands for its character codes; commas between the bytes
are skipped, and so are repeated, leading and trailing ones; there may be no byte, and the load then writes 0 to
IN_LEN. -/
def parseBytes : List AsmToken → Option (List Nat)
  | [] => some []
  | .num n :: rest => (parseBytes rest).map (n :: ·)
  | .text cs :: rest => (parseBytes rest).map (cs ++ ·)
  | .comma :: rest => parseBytes rest
  | _ => none

/-- The line with the given tokens (R69, R70): the mnemonic, then its operands separated by commas. DESIGN CHOICE (log 9):
no token at all is a line that stands for no transaction, and names are taken only as R28, R63, R69 and R70 spell
them. -/
def parseTokens : List AsmToken → Option AsmLine
  | [] => some .blank
  | [.name s] =>
    if s = "NOP" then some .nop
    else if s = "FENC" then some .fenc
    else if s = "HPACK" then some .hpack
    else if s = "SEQINC" then some .seqinc
    else if s = "OCLR" then some .oclr
    else if s = "NEWPKT" then some .newpkt
    else none
  | .name s :: rest =>
    if s = "write" then
      match parsePlace rest with
      | some (p, [.comma, .num v]) => some (.write p v)
      | _ => none
    else if s = "read" then
      match parsePlace rest with
      | some (p, []) => some (.read p)
      | _ => none
    else if s = "load" then
      match rest with
      | .name d :: .comma :: bs => if d = "IN" then (parseBytes bs).map .load else none
      | _ => none
    else
      match rest with
      | [.num a] =>
        if s = "FDEC" then some (.fdec a)
        else if s = "HUNPACK" then some (.hunpack a)
        else if s = "EMIT8" then some (.emit8 a)
        else if s = "EMIT16" then some (.emit16 a)
        else if s = "EMIT32" then some (.emit32 a)
        else if s = "FCOPY" then some (.fcopy a)
        else none
      | [.num a, .comma, .num b] =>
        if s = "WENC" then some (.wenc a b)
        else if s = "WDEC" then some (.wdec a b)
        else if s = "BATSET" then some (.batset a b)
        else none
      | _ => none
  | _ => none

/-- A line of text as a line of the language. DESIGN CHOICE (log 9): none, an assembly error, where it is not one. -/
def parseLine (text : String) : Option AsmLine := parseTokens (tokens false [] text.toList)

/-- A line of text as the host transactions it stands for, none for an assembly error. -/
def assembleText (text : String) : Option (List HostEvent) := (parseLine text).bind assembleLine

end Sys2Proof.Machine
end

