-- ==== Sys2Proof/Safety.lean ====
section
/-! DEFINITION. What counts as a well-formed state and as a successful run, in the words the statements use. -/

namespace Sys2Proof.Machine

/-- The invariant of the machine: both buffers are in canonical form (log 8), and ERR holds a code the block produces
(R95: "5-15 are never produced"). -/
structure State.Inv (s : State) : Prop where
  inWf : s.inBuf.wf = true
  outWf : s.outBuf.wf = true
  errLegal : s.status.err.toNat ≤ 4

/-- What a successful command leaves besides its writes (R97): ERR is 0, and ANYERR and ODDDROP keep their values. -/
def State.ok (s : State) : State := { s with status := ⟨0#4, s.status.anyErr, s.status.oddDrop⟩ }

/-- What a command that fails with a code leaves besides CMD (R97, R100): ERR holds the code, ANYERR is set, and nothing
else changes. -/
def State.failed (s : State) (code : BitVec 4) : State := { s with status := ⟨code, true, s.status.oddDrop⟩ }

/-- `t` is `s` after a command succeeded that appended the bytes `bs` and wrote nothing else: the bytes stand at
`OUT[OUT_LEN ..]` in order, OUT_LEN has advanced by their number, every other byte of OUT is as it was, and so is
everything else but STATUS (R24, R50, R97). -/
structure Appended (s t : State) (bs : List Byte) : Prop where
  len : t.outLen.val = s.outLen.val + bs.length
  bytes : ∀ (i : Nat) (h : i < bs.length), t.outBuf.read (s.outLen.val + i) = bs[i]
  others : ∀ a, (a < s.outLen.val ∨ s.outLen.val + bs.length ≤ a) → t.outBuf.read a = s.outBuf.read a
  rest : t = { s.ok with outBuf := t.outBuf, outLen := t.outLen }

/-- The encoding part of a command's rule: every word the match and mask select decodes to the command with the operands
`mk` takes from it (R63), and a word with the same opcode they do not select is ILLEGAL: it writes only CMD and STATUS
(R64). -/
def EncodedAs (pattern mask : Word) (mk : Word → Instr) : Prop :=
  (∀ w, w &&& mask = pattern → decode w = .command (mk w)) ∧
    ∀ w s, w &&& mask ≠ pattern → opc w = opc pattern → execute w s = .next ({ s with cmd := w }.failed 4#4)

/-- The TRUNC column of R96. -/
def inputShort (i : Instr) (s : State) : Bool :=
  match i with
  | .fdec off => decide (s.inLen.val < off.toNat + 4)
  | .wenc off cnt => decide (s.inLen.val < off.toNat + cnt.toNat)
  | .wdec off cnt => decide (s.inLen.val < off.toNat + cnt.toNat)
  | .hunpack off => decide (s.inLen.val < off.toNat + 34)
  | .nop | .fenc | .hpack | .batset _ _ | .seqinc | .emit8 _ | .oclr => false

/-- The ODDLEN column of R96. -/
def oddRejected (i : Instr) (s : State) : Bool :=
  match i with
  | .wdec _ cnt => decide (cnt.toNat % 2 = 1) && !s.ctrl.oddMode
  | .nop | .fdec _ | .fenc | .wenc _ _ | .hpack | .hunpack _ | .batset _ _ | .seqinc | .emit8 _ | .oclr => false

/-- The OVF column of R96. -/
def outputFull (i : Instr) (s : State) : Bool :=
  match i with
  | .fenc => decide (256 < s.outLen.val + 4)
  | .wenc _ cnt => decide (256 < s.outLen.val + 2 * cnt.toNat)
  | .wdec _ cnt => decide (256 < s.outLen.val + cnt.toNat / 2)
  | .hpack => decide (256 < s.outLen.val + 34)
  | .emit8 _ => decide (256 < s.outLen.val + 1)
  | .nop | .fdec _ | .hunpack _ | .batset _ _ | .seqinc | .oclr => false

/-- The one code a command reports when several errors apply: TRUNC before ODDLEN before OVF (R99). -/
def reportedCode (i : Instr) (s : State) : BitVec 4 :=
  if inputShort i s then 1#4 else if oddRejected i s then 2#4 else if outputFull i s then 3#4 else 0#4

/-- An event that may clear ANYERR: a host write of 1 to bit 8 of STATUS, or reset (R26). -/
def clearsAnyErr : HostEvent → Bool
  | .write a v => a == 0x001#10 && v.getLsbD 8
  | .rst => true
  | .read _ => false

end Sys2Proof.Machine
end

