-- ==== Sys2Proof/Certificates/Slice0/Obligations.lean ====
section
/-! DEFINITION. The statements for the provers. Each docstring names the rule or the sections of spec/ it formalises.
`IN[i]` is `s.inBuf.read i`, `OUT[i]` is `s.outBuf.read i`; a host write to CMD is the event
`.write 0x000#10 w`. -/

open Sys2Proof Sys2Proof.Machine

/-! ### Decoding and encoding -/

/-- R61, R63, R68: decoding the word of a command gives the command back, with every operand at every value. -/
def Obligations.DecodeOfEncodeIsTheCommand : Prop := ∀ i : Instr, decode (encode i) = .command i

/-- R59, R63, R68: a word that decodes to a command is that command's word, so each command has one word and no bit of
a legal word is ignored. -/
def Obligations.EncodeOfDecodedIsTheWord : Prop := ∀ (w : Word) (i : Instr), decode w = .command i → encode i = w

/-- R63: a row of the opcode map selects a word iff the word is that row's command. -/
def Obligations.OpcodeMapSelectsExactly : Prop :=
  ∀ r ∈ opcodeMap, ∀ w : Word, (w &&& r.mask = r.pattern ↔ ∃ i, decode w = .command i ∧ i.row = r)

/-- R65: a word whose opcode is unassigned, written to CMD, ends with ILLEGAL, whatever its other fields hold, and
changes only CMD and STATUS. -/
def Obligations.UnassignedOpcodesAreIllegal : Prop :=
  ∀ (s : State) (w : Word) (rest : List HostEvent), s.pending = .write 0x000#10 w :: rest →
    ((0x03 ≤ w.toNat / 2 ^ 24 ∧ w.toNat / 2 ^ 24 ≤ 0x0F) ∨ (0x12 ≤ w.toNat / 2 ^ 24 ∧ w.toNat / 2 ^ 24 ≤ 0x1F) ∨
      (0x24 ≤ w.toNat / 2 ^ 24 ∧ w.toNat / 2 ^ 24 ≤ 0x2F) ∨ 0x32 ≤ w.toNat / 2 ^ 24) →
    step s = .next ({ s with pending := rest, cmd := w }.failed 4#4)

/-- R64: a word with an assigned opcode and a non-zero bit in a reserved field of that opcode's format, written to CMD,
ends with ILLEGAL and has no effect beyond CMD and STATUS. The reserved fields of a row are the bits its mask keeps
besides the opcode. -/
def Obligations.NonZeroReservedFieldIsIllegal : Prop :=
  ∀ r ∈ opcodeMap, ∀ (s : State) (w : Word) (rest : List HostEvent), s.pending = .write 0x000#10 w :: rest →
    w.toNat / 2 ^ 24 = r.pattern.toNat / 2 ^ 24 → w &&& r.mask &&& 0x00FFFFFF#32 ≠ 0#32 →
    step s = .next ({ s with pending := rest, cmd := w }.failed 4#4)

/-- Words written out from the formats of R61 and the opcodes of R63 decode to their commands. -/
def Obligations.SampleWordsDecode : Prop :=
  decode 0x00000000#32 = .command .nop ∧ decode 0x01450000#32 = .command (.fdec 69#8) ∧
    decode 0x10000E00#32 = .command (.wenc 0#8 14#8) ∧ decode 0x11261C00#32 = .command (.wdec 38#8 28#8) ∧
    decode 0x21DE0000#32 = .command (.hunpack 222#8) ∧ decode 0x2200500A#32 = .command (.batset 80#8 10#8) ∧
    decode 0x30000005#32 = .command (.emit8 5#8) ∧ decode 0x01000100#32 = .illegal (.reservedField 0x01#8) ∧
    decode 0x03000000#32 = .illegal (.unassignedOpcode 0x03#8)

/-! ### The step and the host port -/

/-- R35, R68: when the next event is a host write of `w` to CMD and `w` decodes to a command, the step puts `w` in CMD,
takes the event off the list and is the command's `exec`. -/
def Obligations.StepRunsTheDecodedCommand : Prop :=
  ∀ (s : State) (w : Word) (rest : List HostEvent) (i : Instr), s.pending = .write 0x000#10 w :: rest →
    decode w = .command i → step s = exec i { s with pending := rest, cmd := w }

/-- The model's choice (log 2): with no event pending, a step changes nothing. -/
def Obligations.IdleStepChangesNothing : Prop := ∀ s : State, s.pending = [] → step s = .next s

/-- The model's choice (log 2): a command word placed as the next event is run by the very next step, after which the
events that were pending before are pending again. -/
def Obligations.PlacedWordRunsNext : Prop :=
  ∀ (s : State) (w : Nat) (i : Instr), decodeTableWord 32 w = some i →
    step (s.withFetchWord 32 w) = exec i { s with cmd := BitVec.ofNat 32 (w % 2 ^ 32) }

/-- R103, R118: every state accepts every transaction: a step always answers a next state. -/
def Obligations.EveryStepAnswersNext : Prop := ∀ s : State, ∃ t, step s = .next t

/-- R42, R52: a host read changes no state of the block; its value goes to the host (the model's list of replies,
log 3). -/
def Obligations.HostReadOnlyReplies : Prop :=
  ∀ (s : State) (a : PortAddr) (rest : List HostEvent), s.pending = .read a :: rest →
    step s = .next { s with pending := rest, replies := s.replies ++ [hostRead a s] }

/-- R35: a host write to CMD stores the word even when it is illegal; nothing but such a write and reset changes CMD; a
read of CMD returns it; after reset it is 0. -/
def Obligations.CmdHoldsTheLastWord : Prop :=
  (∀ (s t : State) (w : Word) (rest : List HostEvent), s.pending = .write 0x000#10 w :: rest → step s = .next t →
      t.cmd = w) ∧
    (∀ s t : State, step s = .next t → t.cmd ≠ s.cmd →
      (∃ w rest, s.pending = .write 0x000#10 w :: rest) ∨ ∃ rest, s.pending = .rst :: rest) ∧
    (∀ s : State, hostRead 0x000#10 s = s.cmd) ∧ State.reset.cmd = 0x00000000#32

/-- R33: a host write to STATUS clears ANYERR on bit 8 and ODDDROP on bit 9 and changes nothing else; a read gives ERR
in bits 3:0, ANYERR in bit 8, ODDDROP in bit 9 and 0 elsewhere. -/
def Obligations.StatusWriteOneToClearAndRead : Prop :=
  (∀ (s : State) (v : Word) (rest : List HostEvent), s.pending = .write 0x001#10 v :: rest →
      step s = .next { s with
        pending := rest
        status := ⟨s.status.err, s.status.anyErr && !v.getLsbD 8, s.status.oddDrop && !v.getLsbD 9⟩ }) ∧
    ∀ s : State, (hostRead 0x001#10 s).toNat =
      s.status.err.toNat + 256 * s.status.anyErr.toNat + 512 * s.status.oddDrop.toNat

/-- R34, R18: a host write to CTRL sets ODDMODE from bit 0, a host write to F sets all 32 bits, each changing nothing
else; reads give ODDMODE and F back. -/
def Obligations.CtrlAndFloatRegisterPort : Prop :=
  (∀ (s : State) (v : Word) (rest : List HostEvent), s.pending = .write 0x002#10 v :: rest →
      step s = .next { s with pending := rest, ctrl := ⟨v.getLsbD 0⟩ }) ∧
    (∀ (s : State) (v : Word) (rest : List HostEvent), s.pending = .write 0x003#10 v :: rest →
      step s = .next { s with pending := rest, f := v }) ∧
    ∀ s : State, (hostRead 0x002#10 s).toNat = s.ctrl.oddMode.toNat ∧ hostRead 0x003#10 s = s.f

/-- R31: a host write of `v` to IN_LEN sets it to `min(v[8:0], 256)` and changes nothing else, IN's contents included;
a read returns it. -/
def Obligations.InLenWriteClamps : Prop :=
  (∀ (s : State) (v : Word) (rest : List HostEvent), s.pending = .write 0x004#10 v :: rest →
      ∃ n : BufLen, n.val = min (v.toNat % 512) 256 ∧ step s = .next { s with pending := rest, inLen := n }) ∧
    ∀ s : State, (hostRead 0x004#10 s).toNat = s.inLen.val

/-- R30: a host write to a header field register of width W stores the low W bits in that field and changes nothing
else; a read returns the field, zero-extended. -/
def Obligations.FieldRegistersStoreTheLowBits : Prop :=
  (∀ (s : State) (v : Word) (rest : List HostEvent) (a : PortAddr), s.pending = .write a v :: rest →
      (a = 0x010#10 → step s = .next { s with pending := rest, hdr := { s.hdr with tver := v.setWidth 16 } }) ∧
      (a = 0x015#10 → step s = .next { s with pending := rest, hdr := { s.hdr with seq := v.setWidth 16 } }) ∧
      (a = 0x016#10 → step s = .next { s with pending := rest, hdr := { s.hdr with cver := v.setWidth 8 } }) ∧
      (a = 0x017#10 → step s = .next { s with pending := rest, hdr := { s.hdr with pwr := v.setWidth 8 } }) ∧
      (a = 0x018#10 → step s = .next { s with pending := rest, hdr := { s.hdr with chan := v.setWidth 8 } }) ∧
      (a = 0x019#10 → step s = .next { s with pending := rest, hdr := { s.hdr with rcls := v.setWidth 8 } }) ∧
      (a = 0x01A#10 → step s = .next { s with pending := rest, hdr := { s.hdr with burst := v.setWidth 8 } }) ∧
      (a = 0x01B#10 → step s = .next { s with pending := rest, hdr := { s.hdr with sysid := v.setWidth 8 } }) ∧
      (a = 0x01C#10 → step s = .next { s with pending := rest, hdr := { s.hdr with syslen := v.setWidth 8 } }) ∧
      (a = 0x01D#10 → step s = .next { s with pending := rest, hdr := { s.hdr with ptype := v.setWidth 16 } }) ∧
      (a = 0x01E#10 → step s = .next { s with pending := rest, hdr := { s.hdr with batid := v.setWidth 8 } }) ∧
      (a = 0x01F#10 → step s = .next { s with pending := rest, hdr := { s.hdr with batlen := v.setWidth 8 } }) ∧
      (a = 0x020#10 → step s = .next { s with pending := rest, hdr := { s.hdr with pct := v.setWidth 8 } }) ∧
      (a = 0x021#10 → step s = .next { s with pending := rest, hdr := { s.hdr with days := v.setWidth 16 } }) ∧
      (a = 0x022#10 → step s = .next { s with pending := rest, hdr := { s.hdr with age := v } })) ∧
    ∀ s : State,
      (hostRead 0x010#10 s).toNat = s.hdr.tver.toNat ∧ (hostRead 0x015#10 s).toNat = s.hdr.seq.toNat ∧
      (hostRead 0x016#10 s).toNat = s.hdr.cver.toNat ∧ (hostRead 0x017#10 s).toNat = s.hdr.pwr.toNat ∧
      (hostRead 0x018#10 s).toNat = s.hdr.chan.toNat ∧ (hostRead 0x019#10 s).toNat = s.hdr.rcls.toNat ∧
      (hostRead 0x01A#10 s).toNat = s.hdr.burst.toNat ∧ (hostRead 0x01B#10 s).toNat = s.hdr.sysid.toNat ∧
      (hostRead 0x01C#10 s).toNat = s.hdr.syslen.toNat ∧ (hostRead 0x01D#10 s).toNat = s.hdr.ptype.toNat ∧
      (hostRead 0x01E#10 s).toNat = s.hdr.batid.toNat ∧ (hostRead 0x01F#10 s).toNat = s.hdr.batlen.toNat ∧
      (hostRead 0x020#10 s).toNat = s.hdr.pct.toNat ∧ (hostRead 0x021#10 s).toNat = s.hdr.days.toNat ∧
      hostRead 0x022#10 s = s.hdr.age

/-- R29: TAG0 and TAG1 (AP0 and AP1) are the big-endian views of the six bytes of TAG (AP): a read assembles them, a
write to the first view sets bytes 0 to 3, a write to the second sets bytes 4 and 5 from bits 15:0, and nothing else
changes. -/
def Obligations.HardwareAddressViews : Prop :=
  (∀ s : State,
      (hostRead 0x011#10 s).toNat = s.hdr.tag.b0.toNat * 2 ^ 24 + s.hdr.tag.b1.toNat * 2 ^ 16
        + s.hdr.tag.b2.toNat * 2 ^ 8 + s.hdr.tag.b3.toNat ∧
      (hostRead 0x012#10 s).toNat = s.hdr.tag.b4.toNat * 2 ^ 8 + s.hdr.tag.b5.toNat ∧
      (hostRead 0x013#10 s).toNat = s.hdr.ap.b0.toNat * 2 ^ 24 + s.hdr.ap.b1.toNat * 2 ^ 16
        + s.hdr.ap.b2.toNat * 2 ^ 8 + s.hdr.ap.b3.toNat ∧
      (hostRead 0x014#10 s).toNat = s.hdr.ap.b4.toNat * 2 ^ 8 + s.hdr.ap.b5.toNat) ∧
    ∀ (s : State) (v : Word) (rest : List HostEvent) (a : PortAddr), s.pending = .write a v :: rest →
      (a = 0x011#10 → step s = .next { s with
        pending := rest
        hdr := { s.hdr with
          tag := ⟨v.extractLsb' 24 8, v.extractLsb' 16 8, v.extractLsb' 8 8, v.extractLsb' 0 8,
            s.hdr.tag.b4, s.hdr.tag.b5⟩ } }) ∧
      (a = 0x012#10 → step s = .next { s with
        pending := rest
        hdr := { s.hdr with
          tag := ⟨s.hdr.tag.b0, s.hdr.tag.b1, s.hdr.tag.b2, s.hdr.tag.b3,
            v.extractLsb' 8 8, v.extractLsb' 0 8⟩ } }) ∧
      (a = 0x013#10 → step s = .next { s with
        pending := rest
        hdr := { s.hdr with
          ap := ⟨v.extractLsb' 24 8, v.extractLsb' 16 8, v.extractLsb' 8 8, v.extractLsb' 0 8,
            s.hdr.ap.b4, s.hdr.ap.b5⟩ } }) ∧
      (a = 0x014#10 → step s = .next { s with
        pending := rest
        hdr := { s.hdr with
          ap := ⟨s.hdr.ap.b0, s.hdr.ap.b1, s.hdr.ap.b2, s.hdr.ap.b3,
            v.extractLsb' 8 8, v.extractLsb' 0 8⟩ } })

/-- R43: the IN window. For every index 0..255, whatever IN_LEN is: a read returns the byte, a write sets it to
`v[7:0]`, and every other byte of IN and everything else stays. -/
def Obligations.InputWindowReadsAndWrites : Prop :=
  ∀ (s : State) (i : Nat), i < 256 →
    (hostRead (BitVec.ofNat 10 (0x100 + i)) s).toNat = (s.inBuf.read i).toNat ∧
    ∀ (v : Word) (rest : List HostEvent), s.pending = .write (BitVec.ofNat 10 (0x100 + i)) v :: rest →
      ∃ t, step s = .next t ∧ t.inBuf.read i = v.setWidth 8 ∧
        (∀ a, a ≠ i → t.inBuf.read a = s.inBuf.read a) ∧ t = { s with pending := rest, inBuf := t.inBuf }

/-- R44: the OUT window. For every index 0..255, those at and above OUT_LEN included: a read returns the byte and a
write is ignored. -/
def Obligations.OutputWindowIsReadOnly : Prop :=
  ∀ (s : State) (i : Nat), i < 256 →
    (hostRead (BitVec.ofNat 10 (0x200 + i)) s).toNat = (s.outBuf.read i).toNat ∧
    ∀ (v : Word) (rest : List HostEvent), s.pending = .write (BitVec.ofNat 10 (0x200 + i)) v :: rest →
      step s = .next { s with pending := rest }

/-- R32: OUT_LEN is read-only to the host, and only a command or reset changes it. -/
def Obligations.OutLenIsReadOnlyToTheHost : Prop :=
  (∀ s : State, (hostRead 0x005#10 s).toNat = s.outLen.val) ∧
    (∀ (s : State) (v : Word) (rest : List HostEvent), s.pending = .write 0x005#10 v :: rest →
      step s = .next { s with pending := rest }) ∧
    ∀ s t : State, step s = .next t → t.outLen ≠ s.outLen →
      (∃ w rest i, s.pending = .write 0x000#10 w :: rest ∧ decode w = .command i ∧
        (i = .fenc ∨ (∃ off cnt, i = .wenc off cnt) ∨ (∃ off cnt, i = .wdec off cnt) ∨ i = .hpack ∨
          (∃ imm, i = .emit8 imm) ∨ i = .oclr)) ∨
      ∃ rest, s.pending = .rst :: rest

/-- R36: the unmapped addresses read 0 and ignore writes, with no change of state and no error. -/
def Obligations.UnmappedAddressesReadZeroAndIgnoreWrites : Prop :=
  ∀ (s : State) (a : PortAddr),
    ((0x006 ≤ a.toNat ∧ a.toNat ≤ 0x00F) ∨ (0x023 ≤ a.toNat ∧ a.toNat ≤ 0x0FF) ∨ 0x300 ≤ a.toNat) →
    (∀ rest : List HostEvent, s.pending = .read a :: rest →
      step s = .next { s with pending := rest, replies := s.replies ++ [0x00000000#32] }) ∧
    ∀ (v : Word) (rest : List HostEvent), s.pending = .write a v :: rest → step s = .next { s with pending := rest }

/-- R52: every host write but the one to CMD is idempotent: repeating it changes nothing further. -/
def Obligations.HostWritesAreIdempotent : Prop :=
  ∀ (a : PortAddr) (v : Word) (s t : State), a ≠ 0x000#10 → hostWrite a v s = .next t → hostWrite a v t = .next t

/-! ### The commands -/

/-- R92: NOP reports success and does nothing else; any other word with its opcode is ILLEGAL. -/
def Obligations.NopReportsSuccess : Prop :=
  EncodedAs 0x00000000#32 0xFFFFFFFF#32 (fun _ => .nop) ∧ ∀ s : State, exec .nop s = .next s.ok

/-- R73: FDEC loads F with the 4 bytes at OFF, the first one most significant, or raises TRUNC with F unchanged;
nothing else but STATUS changes. -/
def Obligations.FdecLoadsFourBigEndianBytes : Prop :=
  EncodedAs 0x01000000#32 0xFF00FFFF#32 (fun w => .fdec (w.extractLsb' 16 8)) ∧
  ∀ (off : Byte) (s : State),
    (off.toNat + 4 ≤ s.inLen.val →
      ∃ v : Word, exec (.fdec off) s = .next { s.ok with f := v } ∧
        v.toNat = (s.inBuf.read off.toNat).toNat * 2 ^ 24 + (s.inBuf.read (off.toNat + 1)).toNat * 2 ^ 16
          + (s.inBuf.read (off.toNat + 2)).toNat * 2 ^ 8 + (s.inBuf.read (off.toNat + 3)).toNat) ∧
    (s.inLen.val < off.toNat + 4 → exec (.fdec off) s = .next (s.failed 1#4))

/-- R74: FENC appends F as 4 big-endian bytes, or raises OVF with OUT and OUT_LEN unchanged. -/
def Obligations.FencAppendsFourBigEndianBytes : Prop :=
  EncodedAs 0x02000000#32 0xFFFFFFFF#32 (fun _ => .fenc) ∧
  ∀ s : State,
    (s.outLen.val + 4 ≤ 256 → ∃ t, exec .fenc s = .next t ∧
      Appended s t [s.f.extractLsb' 24 8, s.f.extractLsb' 16 8, s.f.extractLsb' 8 8, s.f.extractLsb' 0 8]) ∧
    (256 < s.outLen.val + 4 → exec .fenc s = .next (s.failed 3#4))

/-- R79: WENC appends 0x00 and `IN[OFF+i]` for each `i` below CNT; TRUNC before OVF, and on either OUT and OUT_LEN are
unchanged. Input bytes are not checked. -/
def Obligations.WencAppendsWideBytes : Prop :=
  EncodedAs 0x10000000#32 0xFF0000FF#32 (fun w => .wenc (w.extractLsb' 16 8) (w.extractLsb' 8 8)) ∧
  ∀ (off cnt : Byte) (s : State),
    (off.toNat + cnt.toNat ≤ s.inLen.val → s.outLen.val + 2 * cnt.toNat ≤ 256 →
      ∃ t, exec (.wenc off cnt) s = .next t ∧ t.outLen.val = s.outLen.val + 2 * cnt.toNat ∧
        (∀ i, i < cnt.toNat → t.outBuf.read (s.outLen.val + 2 * i) = 0x00#8 ∧
          t.outBuf.read (s.outLen.val + 2 * i + 1) = s.inBuf.read (off.toNat + i)) ∧
        (∀ a, (a < s.outLen.val ∨ s.outLen.val + 2 * cnt.toNat ≤ a) → t.outBuf.read a = s.outBuf.read a) ∧
        t = { s.ok with outBuf := t.outBuf, outLen := t.outLen }) ∧
    (s.inLen.val < off.toNat + cnt.toNat → exec (.wenc off cnt) s = .next (s.failed 1#4)) ∧
    (off.toNat + cnt.toNat ≤ s.inLen.val → 256 < s.outLen.val + 2 * cnt.toNat →
      exec (.wenc off cnt) s = .next (s.failed 3#4))

/-- R80: WDEC appends `IN[OFF+2j+1]` for each `j` below CNT div 2; TRUNC, then ODDLEN for an odd count in strict mode,
then OVF; ODDDROP is set exactly by a success with an odd count. -/
def Obligations.WdecAppendsSecondBytes : Prop :=
  EncodedAs 0x11000000#32 0xFF0000FF#32 (fun w => .wdec (w.extractLsb' 16 8) (w.extractLsb' 8 8)) ∧
  ∀ (off cnt : Byte) (s : State),
    (off.toNat + cnt.toNat ≤ s.inLen.val → (cnt.toNat % 2 = 1 → s.ctrl.oddMode = true) →
      s.outLen.val + cnt.toNat / 2 ≤ 256 →
      ∃ t, exec (.wdec off cnt) s = .next t ∧ t.outLen.val = s.outLen.val + cnt.toNat / 2 ∧
        (∀ j, j < cnt.toNat / 2 →
          t.outBuf.read (s.outLen.val + j) = s.inBuf.read (off.toNat + 2 * j + 1)) ∧
        (∀ a, (a < s.outLen.val ∨ s.outLen.val + cnt.toNat / 2 ≤ a) → t.outBuf.read a = s.outBuf.read a) ∧
        t = { s with
          outBuf := t.outBuf
          outLen := t.outLen
          status := ⟨0#4, s.status.anyErr, s.status.oddDrop || decide (cnt.toNat % 2 = 1)⟩ }) ∧
    (s.inLen.val < off.toNat + cnt.toNat → exec (.wdec off cnt) s = .next (s.failed 1#4)) ∧
    (off.toNat + cnt.toNat ≤ s.inLen.val → cnt.toNat % 2 = 1 → s.ctrl.oddMode = false →
      exec (.wdec off cnt) s = .next (s.failed 2#4)) ∧
    (off.toNat + cnt.toNat ≤ s.inLen.val → (cnt.toNat % 2 = 1 → s.ctrl.oddMode = true) →
      256 < s.outLen.val + cnt.toNat / 2 → exec (.wdec off cnt) s = .next (s.failed 3#4))

/-- R86: HPACK appends the 34 bytes of the fixed header region, each field in the order and width of R85, most
significant byte first, or raises OVF with OUT and OUT_LEN unchanged; HDR is unchanged. -/
def Obligations.HpackAppendsTheFixedRegion : Prop :=
  EncodedAs 0x20000000#32 0xFFFFFFFF#32 (fun _ => .hpack) ∧
  ∀ s : State,
    (s.outLen.val + 34 ≤ 256 → ∃ t, exec .hpack s = .next t ∧ Appended s t
      [s.hdr.tver.extractLsb' 8 8, s.hdr.tver.extractLsb' 0 8,
        s.hdr.tag.b0, s.hdr.tag.b1, s.hdr.tag.b2, s.hdr.tag.b3, s.hdr.tag.b4, s.hdr.tag.b5,
        s.hdr.ap.b0, s.hdr.ap.b1, s.hdr.ap.b2, s.hdr.ap.b3, s.hdr.ap.b4, s.hdr.ap.b5,
        s.hdr.seq.extractLsb' 8 8, s.hdr.seq.extractLsb' 0 8,
        s.hdr.cver, s.hdr.pwr, s.hdr.chan, s.hdr.rcls, s.hdr.burst, s.hdr.sysid, s.hdr.syslen,
        s.hdr.ptype.extractLsb' 8 8, s.hdr.ptype.extractLsb' 0 8, s.hdr.batid, s.hdr.batlen, s.hdr.pct,
        s.hdr.days.extractLsb' 8 8, s.hdr.days.extractLsb' 0 8,
        s.hdr.age.extractLsb' 24 8, s.hdr.age.extractLsb' 16 8, s.hdr.age.extractLsb' 8 8,
        s.hdr.age.extractLsb' 0 8]) ∧
    (256 < s.outLen.val + 34 → exec .hpack s = .next (s.failed 3#4))

/-- R87: HUNPACK loads every HDR field from its place in the 34 bytes at OFF, most significant byte first, validating
nothing, or raises TRUNC with no HDR field changed; nothing else but STATUS changes. -/
def Obligations.HunpackLoadsTheFixedRegion : Prop :=
  EncodedAs 0x21000000#32 0xFF00FFFF#32 (fun w => .hunpack (w.extractLsb' 16 8)) ∧
  ∀ (off : Byte) (s : State),
    (off.toNat + 34 ≤ s.inLen.val → ∃ h : Hdr, exec (.hunpack off) s = .next { s.ok with hdr := h } ∧
      ∀ b : Nat → Byte, (∀ i, b i = s.inBuf.read (off.toNat + i)) →
        h.tver.toNat = (b 0).toNat * 2 ^ 8 + (b 1).toNat ∧
        h.tag = ⟨b 2, b 3, b 4, b 5, b 6, b 7⟩ ∧ h.ap = ⟨b 8, b 9, b 10, b 11, b 12, b 13⟩ ∧
        h.seq.toNat = (b 14).toNat * 2 ^ 8 + (b 15).toNat ∧
        h.cver = b 16 ∧ h.pwr = b 17 ∧ h.chan = b 18 ∧ h.rcls = b 19 ∧ h.burst = b 20 ∧
        h.sysid = b 21 ∧ h.syslen = b 22 ∧ h.ptype.toNat = (b 23).toNat * 2 ^ 8 + (b 24).toNat ∧
        h.batid = b 25 ∧ h.batlen = b 26 ∧ h.pct = b 27 ∧
        h.days.toNat = (b 28).toNat * 2 ^ 8 + (b 29).toNat ∧
        h.age.toNat = (b 30).toNat * 2 ^ 24 + (b 31).toNat * 2 ^ 16 + (b 32).toNat * 2 ^ 8 + (b 33).toNat) ∧
    (s.inLen.val < off.toNat + 34 → exec (.hunpack off) s = .next (s.failed 1#4))

/-- R88: BATSET puts the charge divided by 10 in bits 7:3 of PCT and the tolerance divided by 10, modulo 8, in bits
2:0, for every 8-bit operand, and changes nothing else but STATUS. -/
def Obligations.BatsetPacksPercent : Prop :=
  EncodedAs 0x22000000#32 0xFFFF0000#32 (fun w => .batset (w.extractLsb' 8 8) (w.extractLsb' 0 8)) ∧
  ∀ (chg tol : Byte) (s : State), ∃ p : Byte,
    exec (.batset chg tol) s = .next { s.ok with hdr := { s.hdr with pct := p } } ∧
      p.toNat = 8 * (chg.toNat / 10) + tol.toNat / 10 % 8

/-- R21: the two subfields of PCT after a BATSET, and the percents a reader of PCT recovers, quantized to tens. -/
def Obligations.PercentSubfieldsAfterBatset : Prop :=
  ∀ (chg tol : Byte) (s t : State), exec (.batset chg tol) s = .next t →
    t.hdr.chgq.toNat = chg.toNat / 10 ∧ t.hdr.tolq.toNat = tol.toNat / 10 % 8 ∧
      t.hdr.chargePercent = chg.toNat - chg.toNat % 10 ∧ t.hdr.tolerancePercent = 10 * (tol.toNat / 10 % 8)

/-- R89: SEQINC adds 1 to SEQ modulo 65536 and changes nothing else but STATUS. -/
def Obligations.SeqincWrapsModulo65536 : Prop :=
  EncodedAs 0x23000000#32 0xFFFFFFFF#32 (fun _ => .seqinc) ∧
  ∀ s : State, ∃ q : Half, exec .seqinc s = .next { s.ok with hdr := { s.hdr with seq := q } } ∧
    q.toNat = (s.hdr.seq.toNat + 1) % 65536

/-- R93: EMIT8 appends its byte, or raises OVF on a full buffer with OUT and OUT_LEN unchanged. -/
def Obligations.Emit8AppendsOneByte : Prop :=
  EncodedAs 0x30000000#32 0xFFFFFF00#32 (fun w => .emit8 (w.extractLsb' 0 8)) ∧
  ∀ (imm : Byte) (s : State),
    (s.outLen.val + 1 ≤ 256 → ∃ t, exec (.emit8 imm) s = .next t ∧ Appended s t [imm]) ∧
    (s.outLen.val = 256 → exec (.emit8 imm) s = .next (s.failed 3#4))

/-- R94: OCLR sets OUT_LEN to 0; OUT's bytes and everything else but STATUS stay. No step but the one that runs OCLR,
and reset, makes OUT_LEN smaller. -/
def Obligations.OclrRestartsOutput : Prop :=
  EncodedAs 0x31000000#32 0xFFFFFFFF#32 (fun _ => .oclr) ∧
  (∀ s : State, exec .oclr s = .next { s.ok with outLen := 0 }) ∧
  ∀ s t : State, step s = .next t → t.outLen.val < s.outLen.val →
    (∃ rest, s.pending = .write 0x000#10 0x31000000#32 :: rest) ∨ ∃ rest, s.pending = .rst :: rest

/-! ### Result codes and errors -/

/-- R95, R99: the code a word written to CMD ends with: ILLEGAL decided from the word alone, then TRUNC, ODDLEN, OVF
by the conditions each command's rule gives, else OK. -/
def Obligations.ResultCodeAndPriority : Prop :=
  ∀ (w : Word) (s : State), ∃ t, execute w s = .next t ∧
    ((∃ why, decode w = .illegal why ∧ t.status.err = 4#4) ∨
      ∃ i, decode w = .command i ∧ t.status.err = reportedCode i s)

/-- R97, R100: how every command ends. ANYERR is set when the code is not 0 and keeps its value otherwise; on failure
only CMD and STATUS change; ODDDROP changes only by a successful WDEC. -/
def Obligations.EpilogueOfEveryCommand : Prop :=
  ∀ (w : Word) (s t : State), execute w s = .next t →
    t.cmd = w ∧ t.status.anyErr = (s.status.anyErr || t.status.err != 0#4) ∧
    (t.status.err ≠ 0#4 → t = { s with cmd := w, status := ⟨t.status.err, true, s.status.oddDrop⟩ }) ∧
    (t.status.oddDrop ≠ s.status.oddDrop →
      t.status.err = 0#4 ∧ ∃ off cnt, decode w = .command (.wdec off cnt))

/-- R39: what each command leaves unchanged, besides CMD and STATUS. -/
def Obligations.CommandsWriteOnlyTheirState : Prop :=
  ∀ (i : Instr) (s t : State), exec i s = .next t →
    t.cmd = s.cmd ∧ t.ctrl = s.ctrl ∧ t.inBuf = s.inBuf ∧ t.inLen = s.inLen ∧ t.pending = s.pending ∧
    t.replies = s.replies ∧
    ((∀ off, i ≠ .fdec off) → t.f = s.f) ∧
    ((∀ off, i ≠ .hunpack off) → t.hdr = { s.hdr with seq := t.hdr.seq, pct := t.hdr.pct }) ∧
    ((∀ off, i ≠ .hunpack off) → (∀ chg tol, i ≠ .batset chg tol) → t.hdr.pct = s.hdr.pct) ∧
    ((∀ off, i ≠ .hunpack off) → i ≠ .seqinc → t.hdr.seq = s.hdr.seq) ∧
    ((i = .nop ∨ i = .seqinc ∨ (∃ off, i = .fdec off) ∨ (∃ off, i = .hunpack off) ∨
      ∃ chg tol, i = .batset chg tol) → t.outBuf = s.outBuf ∧ t.outLen = s.outLen) ∧
    (i = .oclr → t.outBuf = s.outBuf)

/-! ### The whole machine -/

/-- The invariant of the machine is kept by every step from every state: both buffers stay in canonical form (log 8)
and ERR stays one of the five codes of R95. -/
def Obligations.StepKeepsInvariant : Prop := ∀ s t : State, s.Inv → step s = .next t → t.Inv

/-- The reset state satisfies the invariant. -/
def Obligations.ResetSatisfiesInvariant : Prop := State.reset.Inv

/-- R110: the reset input sets the whole state of the block to the reset state. That it is a step of its own, and that
what the host still has to do and has read stays as it is, are the model's choices (log 4). -/
def Obligations.ResetInputIsAStep : Prop :=
  ∀ (s : State) (rest : List HostEvent), s.pending = .rst :: rest →
    step s = .next { State.resetWith Config.pSysid Config.pBatid with pending := rest, replies := s.replies }

/-- R111: the reset state. Every register has the value the rule gives, for every value of the two OPEN parameters,
every byte of both buffers reads 0x00, and the machine's reset state is that state at the implementation's two
parameters. -/
def Obligations.ResetGivesTheResetState : Prop :=
  State.reset = State.resetWith Config.pSysid Config.pBatid ∧
    ∀ p b : Byte,
      (State.resetWith p b).cmd = 0x00000000#32 ∧ (State.resetWith p b).status = ⟨0#4, false, false⟩ ∧
      (State.resetWith p b).ctrl = ⟨false⟩ ∧ (State.resetWith p b).f = 0x00000000#32 ∧
      (∀ i, (State.resetWith p b).inBuf.read i = 0x00#8) ∧ (State.resetWith p b).inLen.val = 0 ∧
      (∀ i, (State.resetWith p b).outBuf.read i = 0x00#8) ∧ (State.resetWith p b).outLen.val = 0 ∧
      (State.resetWith p b).hdr =
        { tver := 0x0000#16, tag := ⟨0#8, 0#8, 0#8, 0#8, 0#8, 0#8⟩, ap := ⟨0#8, 0#8, 0#8, 0#8, 0#8, 0#8⟩,
          seq := 0x0000#16, cver := 0x00#8, pwr := 17#8, chan := 1#8, rcls := 0#8, burst := 3#8, sysid := p,
          syslen := 2#8, ptype := 0x0000#16, batid := b, batlen := 7#8, pct := 0x41#8, days := 100#16, age := 10#32 }

/-- R86, R111, R6: HPACK after reset emits the protocol defaults, with the two OPEN group ids in their places. -/
def Obligations.HpackAfterReset : Prop :=
  ∀ p b : Byte, ∃ t, exec .hpack (State.resetWith p b) = .next t ∧ t.outLen.val = 34 ∧
    t.outBuf.readBytes 0 34 =
      [0x00#8, 0x00#8, 0#8, 0#8, 0#8, 0#8, 0#8, 0#8, 0#8, 0#8, 0#8, 0#8, 0#8, 0#8, 0x00#8, 0x00#8,
        0x00#8, 0x11#8, 0x01#8, 0x00#8, 0x03#8, p, 0x02#8, 0x00#8, 0x00#8,
        b, 0x07#8, 0x41#8, 0x00#8, 0x64#8, 0x00#8, 0x00#8, 0x00#8, 0x0A#8]

/-- R26: ANYERR is sticky: only a host write of 1 to bit 8 of STATUS, or reset, clears it. -/
def Obligations.AnyErrIsSticky : Prop :=
  ∀ s t : State, step s = .next t → s.status.anyErr = true → t.status.anyErr = false →
    ∃ e rest, s.pending = e :: rest ∧ clearsAnyErr e = true

/-- R38, R81: ODDDROP becomes 1 only by a WDEC that succeeds in compatible mode with an odd byte count. -/
def Obligations.OddDropSetOnlyByCompatibleOddWdec : Prop :=
  ∀ s t : State, step s = .next t → s.status.oddDrop = false → t.status.oddDrop = true →
    ∃ w rest off cnt, s.pending = .write 0x000#10 w :: rest ∧ decode w = .command (.wdec off cnt) ∧
      cnt.toNat % 2 = 1 ∧ s.ctrl.oddMode = true ∧ t.status.err = 0#4

/-- R24: no step but reset changes a byte of OUT below the OUT_LEN it finds, or one at or above the OUT_LEN it
leaves. -/
def Obligations.ProducedOutputIsKept : Prop :=
  ∀ s t : State, step s = .next t → (∀ rest, s.pending ≠ .rst :: rest) →
    ∀ a, (a < s.outLen.val ∨ t.outLen.val ≤ a) →
      t.outBuf.read a = s.outBuf.read a

/-- R23: only the host changes IN and IN_LEN, through the IN window and the register IN_LEN (or by reset); no command
does. -/
def Obligations.OnlyTheHostChangesInput : Prop :=
  ∀ s t : State, step s = .next t → (t.inBuf ≠ s.inBuf ∨ t.inLen ≠ s.inLen) →
    (∃ a v rest, s.pending = .write a v :: rest ∧ (a = 0x004#10 ∨ (0x100 ≤ a.toNat ∧ a.toNat ≤ 0x1FF))) ∨
      ∃ rest, s.pending = .rst :: rest

/-- R49: no command reads a byte of IN at or above IN_LEN: two states that differ only in such bytes run every command
alike. -/
def Obligations.CommandsReadOnlyValidInput : Prop :=
  ∀ (i : Instr) (s : State) (m : Memory), (∀ a, a < s.inLen.val → m.read a = s.inBuf.read a) →
    ∃ t, exec i s = .next t ∧ exec i { s with inBuf := m } = .next { t with inBuf := m }

/-- R82: WDEC ignores the first byte of every pair: two states that differ only in those bytes decode alike, STATUS
included. -/
def Obligations.WdecIgnoresFirstBytes : Prop :=
  ∀ (off cnt : Byte) (s : State) (m : Memory),
    (∀ j, j < cnt.toNat / 2 → m.read (off.toNat + 2 * j + 1) = s.inBuf.read (off.toNat + 2 * j + 1)) →
    ∃ t, exec (.wdec off cnt) s = .next t ∧
      exec (.wdec off cnt) { s with inBuf := m } = .next { t with inBuf := m }

/-- R118, R97: a run that ends with ANYERR = 0 and in which the host neither cleared ANYERR nor reset the block had no
failure: ANYERR was 0 after every prefix of it, and every step of it that executed a command word, legal or not, left
ERR = 0. -/
def Obligations.RunEndingCleanHadNoFailure : Prop :=
  ∀ (n : Nat) (s t : State), (∀ e ∈ s.pending, clearsAnyErr e = false) → core.run n s = .next t →
    t.status.anyErr = false → ∀ (k : Nat) (u : State), k ≤ n → core.run k s = .next u →
      u.status.anyErr = false ∧
        ∀ (w : Word) (rest : List HostEvent), k < n → u.pending = .write 0x000#10 w :: rest →
          ∃ v, step u = .next v ∧ v.status.err = 0#4

/-! ### Round trips -/

/-- The round trip the spec infers (R76) from R73, R74 and R75: FDEC then FENC appends exactly the 4 bytes that were
read, and FENC's bytes, copied to IN by the host, load F again. -/
def Obligations.FloatRoundTrip : Prop :=
  (∀ (off : Byte) (s : State), off.toNat + 4 ≤ s.inLen.val → s.outLen.val ≤ 252 →
      ∃ t u, exec (.fdec off) s = .next t ∧ exec .fenc t = .next u ∧ u.outLen.val = s.outLen.val + 4 ∧
        ∀ i, i < 4 → u.outBuf.read (s.outLen.val + i) = s.inBuf.read (off.toNat + i)) ∧
    ∀ (off : Byte) (s : State), s.outLen.val ≤ 252 → ∃ t, exec .fenc s = .next t ∧
      ∀ c : State, off.toNat + 4 ≤ c.inLen.val →
        (∀ i, i < 4 → c.inBuf.read (off.toNat + i) = t.outBuf.read (s.outLen.val + i)) →
        ∃ u, exec (.fdec off) c = .next u ∧ u.f = s.f

/-- The round trip the spec infers (R84) from R79, R80 and R81: for n at most 127 characters, WENC's bytes, copied to
IN by the host and decoded with CNT = 2n, give exactly the characters back, in either mode and without setting
ODDDROP. -/
def Obligations.WideRoundTrip : Prop :=
  ∀ (off n off2 cnt2 : Byte) (s : State), n.toNat ≤ 127 → cnt2.toNat = 2 * n.toNat →
    off.toNat + n.toNat ≤ s.inLen.val → s.outLen.val + 2 * n.toNat ≤ 256 →
    ∃ t, exec (.wenc off n) s = .next t ∧
      ∀ c : State, off2.toNat + cnt2.toNat ≤ c.inLen.val → c.outLen.val + n.toNat ≤ 256 →
        (∀ i, i < cnt2.toNat → c.inBuf.read (off2.toNat + i) = t.outBuf.read (s.outLen.val + i)) →
        ∃ u, exec (.wdec off2 cnt2) c = .next u ∧ u.outLen.val = c.outLen.val + n.toNat ∧
          u.status = ⟨0#4, c.status.anyErr, c.status.oddDrop⟩ ∧
          ∀ i, i < n.toNat → u.outBuf.read (c.outLen.val + i) = s.inBuf.read (off.toNat + i)

/-- The round trip the spec infers (R90) from R85, R86 and R87: the bytes HPACK appends, copied to IN by the host,
give back every HDR field by HUNPACK. -/
def Obligations.HeaderPackThenUnpack : Prop :=
  ∀ (off : Byte) (s : State), s.outLen.val + 34 ≤ 256 → ∃ t, exec .hpack s = .next t ∧
    ∀ c : State, off.toNat + 34 ≤ c.inLen.val →
      (∀ i, i < 34 → c.inBuf.read (off.toNat + i) = t.outBuf.read (s.outLen.val + i)) →
      ∃ u, exec (.hunpack off) c = .next u ∧ u.hdr = s.hdr

/-- The converse round trip the spec infers (R90) from R85, R86 and R87: HUNPACK then HPACK appends exactly the 34
bytes of IN: the region has no unused bit and no bit two fields share. -/
def Obligations.HeaderUnpackThenPack : Prop :=
  ∀ (off : Byte) (s : State), off.toNat + 34 ≤ s.inLen.val → s.outLen.val + 34 ≤ 256 →
    ∃ t u, exec (.hunpack off) s = .next t ∧ exec .hpack t = .next u ∧ u.outLen.val = s.outLen.val + 34 ∧
      ∀ i, i < 34 → u.outBuf.read (s.outLen.val + i) = s.inBuf.read (off.toNat + i)

/-! ### The model's own choices, and the assembly language -/

/-- The model's choice (log 8): two buffers in canonical form that read alike are equal data. -/
def Obligations.CanonicalBuffersThatReadAlikeAreEqual : Prop :=
  ∀ m m' : Memory, m.wf = true → m'.wf = true → (∀ a, a < 256 → m.read a = m'.read a) → m = m'

/-- R70: the expansions of the pseudo-instructions, as host writes to CMD. That every one of these writes is made, also
after one whose command fails, is the model's choice (log 13). -/
def Obligations.PseudoInstructionExpansions : Prop :=
  (∀ v, v < 2 ^ 16 → assembleLine (.emit16 v) = some
      [.write 0x000#10 (encode (.emit8 (BitVec.ofNat 8 (v / 2 ^ 8)))), .write 0x000#10 (encode (.emit8 (BitVec.ofNat 8 v)))]) ∧
    (∀ v, v < 2 ^ 32 → assembleLine (.emit32 v) = some
      [.write 0x000#10 (encode (.emit8 (BitVec.ofNat 8 (v / 2 ^ 24)))),
        .write 0x000#10 (encode (.emit8 (BitVec.ofNat 8 (v / 2 ^ 16)))),
        .write 0x000#10 (encode (.emit8 (BitVec.ofNat 8 (v / 2 ^ 8)))),
        .write 0x000#10 (encode (.emit8 (BitVec.ofNat 8 v)))]) ∧
    (∀ off, off < 256 → assembleLine (.fcopy off) = some
      [.write 0x000#10 (encode (.fdec (BitVec.ofNat 8 off))), .write 0x000#10 (encode .fenc)]) ∧
    assembleLine .newpkt = some [.write 0x000#10 (encode .oclr), .write 0x000#10 (encode .hpack)]

/-- R69: a command line assembles to one host write to CMD of a word that decodes to the command, and a line with an
operand above 255 is an assembly error. -/
def Obligations.CommandLinesAssemble : Prop :=
  ∀ a b : Nat,
    (a < 256 → ∀ p ∈ [(AsmLine.fdec a, Instr.fdec (BitVec.ofNat 8 a)), (.hunpack a, .hunpack (BitVec.ofNat 8 a)),
        (.emit8 a, .emit8 (BitVec.ofNat 8 a)), (.nop, .nop), (.fenc, .fenc), (.hpack, .hpack), (.seqinc, .seqinc),
        (.oclr, .oclr)],
      ∃ w, assembleLine p.1 = some [.write 0x000#10 w] ∧ decode w = .command p.2) ∧
    (a < 256 → b < 256 → ∀ p ∈ [(AsmLine.wenc a b, Instr.wenc (BitVec.ofNat 8 a) (BitVec.ofNat 8 b)),
        (.wdec a b, .wdec (BitVec.ofNat 8 a) (BitVec.ofNat 8 b)),
        (.batset a b, .batset (BitVec.ofNat 8 a) (BitVec.ofNat 8 b))],
      ∃ w, assembleLine p.1 = some [.write 0x000#10 w] ∧ decode w = .command p.2) ∧
    (256 ≤ a → ∀ l ∈ [AsmLine.fdec a, .hunpack a, .emit8 a, .wenc a b, .wdec a b, .batset a b, .wenc b a, .wdec b a,
        .batset b a], assembleLine l = none)
end

