-- ==== Sys2Proof/Laws/Bits.lean ====
section
/-! SUPPORT. The bit-field and byte-order helpers: the fields of a built word, a word rebuilt from its fields, and the
same for big-endian values. -/

namespace Sys2Proof

theorem append_byte_toNat {n : Nat} (x : BitVec n) (y : Byte) : (x ++ y).toNat = x.toNat * 256 + y.toNat := by
  rw [BitVec.toNat_append, ← Nat.shiftLeft_add_eq_or_of_lt y.isLt, Nat.shiftLeft_eq]

theorem byteAt_toNat {n : Nat} (w : BitVec n) (k : Nat) :
    (w.extractLsb' k 8).toNat = w.toNat / 2 ^ k % 256 := by
  rw [BitVec.extractLsb'_toNat, Nat.shiftRight_eq_div_pow]

theorem wordOf_toNat (o a b c : Byte) :
    (wordOf o a b c).toNat = ((o.toNat * 256 + a.toNat) * 256 + b.toNat) * 256 + c.toNat := by
  simp only [wordOf, append_byte_toNat]

@[simp] theorem opc_wordOf (o a b c : Byte) : opc (wordOf o a b c) = o := by
  apply BitVec.eq_of_toNat_eq
  rw [opc, byteAt_toNat, wordOf_toNat]
  omega

@[simp] theorem fa_wordOf (o a b c : Byte) : fa (wordOf o a b c) = a := by
  apply BitVec.eq_of_toNat_eq
  rw [fa, byteAt_toNat, wordOf_toNat]
  omega

@[simp] theorem fb_wordOf (o a b c : Byte) : fb (wordOf o a b c) = b := by
  apply BitVec.eq_of_toNat_eq
  rw [fb, byteAt_toNat, wordOf_toNat]
  omega

@[simp] theorem fc_wordOf (o a b c : Byte) : fc (wordOf o a b c) = c := by
  apply BitVec.eq_of_toNat_eq
  rw [fc, byteAt_toNat, wordOf_toNat]
  omega

/-- A word is the word of its four fields (R60). -/
theorem wordOf_fields (w : Word) : wordOf (opc w) (fa w) (fb w) (fc w) = w := by
  apply BitVec.eq_of_toNat_eq
  rw [wordOf_toNat, opc, fa, fb, fc]
  simp only [byteAt_toNat]
  have := w.isLt
  omega

/-- Two words are equal iff their four fields are. -/
theorem eq_iff_fields (v w : Word) : v = w ↔ opc v = opc w ∧ fa v = fa w ∧ fb v = fb w ∧ fc v = fc w := by
  constructor
  · rintro rfl
    exact ⟨rfl, rfl, rfl, rfl⟩
  · rintro ⟨h1, h2, h3, h4⟩
    rw [← wordOf_fields v, ← wordOf_fields w, h1, h2, h3, h4]

theorem opc_and (v w : Word) : opc (v &&& w) = opc v &&& opc w := BitVec.extractLsb'_and
theorem fa_and (v w : Word) : fa (v &&& w) = fa v &&& fa w := BitVec.extractLsb'_and
theorem fb_and (v w : Word) : fb (v &&& w) = fb v &&& fb w := BitVec.extractLsb'_and
theorem fc_and (v w : Word) : fc (v &&& w) = fc v &&& fc w := BitVec.extractLsb'_and

namespace Machine

theorem be16_toNat (b0 b1 : Byte) : (be16 b0 b1).toNat = b0.toNat * 256 + b1.toNat := append_byte_toNat b0 b1

theorem be32_toNat (b0 b1 b2 b3 : Byte) :
    (be32 b0 b1 b2 b3).toNat = ((b0.toNat * 256 + b1.toNat) * 256 + b2.toNat) * 256 + b3.toNat :=
  wordOf_toNat b0 b1 b2 b3

/-- Splitting a big-endian value gives the bytes it was made of (R8). -/
@[simp] theorem bytesBe16_be16 (b0 b1 : Byte) : bytesBe16 (be16 b0 b1) = [b0, b1] := by
  simp only [bytesBe16, List.cons.injEq, and_true]
  constructor <;> apply BitVec.eq_of_toNat_eq <;> rw [byteAt_toNat, be16_toNat] <;> omega

@[simp] theorem bytesBe32_be32 (b0 b1 b2 b3 : Byte) : bytesBe32 (be32 b0 b1 b2 b3) = [b0, b1, b2, b3] := by
  simp only [bytesBe32, List.cons.injEq, and_true]
  refine ⟨?_, ?_, ?_, ?_⟩ <;> apply BitVec.eq_of_toNat_eq <;> rw [byteAt_toNat, be32_toNat] <;> omega

/-- A value is made of its big-endian bytes (R8). -/
theorem be16_bytes (v : Half) : be16 (v.extractLsb' 8 8) (v.extractLsb' 0 8) = v := by
  apply BitVec.eq_of_toNat_eq
  rw [be16_toNat, byteAt_toNat, byteAt_toNat]
  have := v.isLt
  omega

theorem be32_bytes (v : Word) :
    be32 (v.extractLsb' 24 8) (v.extractLsb' 16 8) (v.extractLsb' 8 8) (v.extractLsb' 0 8) = v :=
  wordOf_fields v

end Machine

end Sys2Proof
end

