-- ==== Sys2Proof/Laws/Memory.lean ====
section
/-! SUPPORT. The laws of a buffer: what reads give after a write or a run of writes, and that every write keeps the
canonical form. -/

namespace Sys2Proof.Machine

theorem Memory.read_erase_same (m : Memory) (a : Nat) : Memory.read (Memory.erase m a) a = 0#8 := by
  induction m with
  | nil => rfl
  | cons c m ih =>
    obtain ⟨k, b⟩ := c
    by_cases h : k = a
    · simpa [Memory.erase, h] using ih
    · simpa [Memory.erase, Memory.read, h] using ih

theorem Memory.read_erase_other (m : Memory) {a a' : Nat} (h : a' ≠ a) :
    Memory.read (Memory.erase m a) a' = Memory.read m a' := by
  induction m with
  | nil => rfl
  | cons c m ih =>
    obtain ⟨k, b⟩ := c
    by_cases hk : k = a
    · subst hk
      simpa [Memory.erase, Memory.read, Ne.symm h] using ih
    · simp only [Memory.erase, hk, if_false, Memory.read, ih]

/-- No entry of an erased buffer has the erased index. -/
theorem Memory.mem_erase {m : Memory} {a : Nat} {c : Host.Cell} (h : c ∈ Memory.erase m a) : c.1 ≠ a ∧ c ∈ m := by
  induction m with
  | nil => simp [Memory.erase] at h
  | cons d m ih =>
    obtain ⟨k, b⟩ := d
    by_cases hk : k = a
    · have := ih (by simpa [Memory.erase, hk] using h)
      exact ⟨this.1, List.mem_cons_of_mem _ this.2⟩
    · rcases List.mem_cons.1 (by simpa [Memory.erase, hk] using h) with rfl | h
      · exact ⟨hk, List.mem_cons_self⟩
      · exact ⟨(ih h).1, List.mem_cons_of_mem _ (ih h).2⟩

theorem Memory.read_insert_same (m : Memory) (a : Nat) (v : Byte) (h : ∀ c ∈ m, c.1 ≠ a) :
    Memory.read (Memory.insert m a v) a = v := by
  induction m with
  | nil => simp [Memory.insert, Memory.read]
  | cons c m ih =>
    obtain ⟨k, b⟩ := c
    have hk : k ≠ a := h (k, b) List.mem_cons_self
    have := ih fun c hc => h c (List.mem_cons_of_mem _ hc)
    by_cases hlt : a < k <;> simp [Memory.insert, Memory.read, hlt, hk, this]

theorem Memory.read_insert_other (m : Memory) {a a' : Nat} (v : Byte) (h : a' ≠ a) :
    Memory.read (Memory.insert m a v) a' = Memory.read m a' := by
  induction m with
  | nil => simp [Memory.insert, Memory.read, Ne.symm h]
  | cons c m ih =>
    obtain ⟨k, b⟩ := c
    by_cases hlt : a < k <;> simp [Memory.insert, Memory.read, hlt, Ne.symm h, ih]

/-- A byte that was written reads as written. -/
@[simp] theorem Memory.read_write_same (m : Memory) (a : Nat) (v : Byte) :
    Memory.read (Memory.write m a v) a = v := by
  by_cases hv : v = 0#8
  · simp [Memory.write, hv, Memory.read_erase_same]
  · simp only [Memory.write, hv, if_false]
    exact Memory.read_insert_same _ _ _ fun c hc => (Memory.mem_erase hc).1

/-- A write leaves every other byte alone. -/
theorem Memory.read_write_other (m : Memory) {a a' : Nat} (v : Byte) (h : a' ≠ a) :
    Memory.read (Memory.write m a v) a' = Memory.read m a' := by
  by_cases hv : v = 0#8
  · simp [Memory.write, hv, Memory.read_erase_other m h]
  · simp only [Memory.write, hv, if_false]
    rw [Memory.read_insert_other _ _ h, Memory.read_erase_other m h]

theorem Memory.read_writeBytes_outside (bs : List Byte) (m : Memory) (a a' : Nat)
    (h : a' < a ∨ a + bs.length ≤ a') :
    Memory.read (Memory.writeBytes m a bs) a' = Memory.read m a' := by
  induction bs generalizing m a with
  | nil => rfl
  | cons b bs ih =>
    simp only [List.length_cons] at h
    rw [Memory.writeBytes, ih _ _ (by omega), Memory.read_write_other _ _ (by omega)]

theorem Memory.read_writeBytes_inside (bs : List Byte) (m : Memory) (a i : Nat) (h : i < bs.length) :
    Memory.read (Memory.writeBytes m a bs) (a + i) = bs[i] := by
  induction bs generalizing m a i with
  | nil => simp at h
  | cons b bs ih =>
    cases i with
    | zero =>
      rw [Memory.writeBytes, Memory.read_writeBytes_outside _ _ _ _ (by omega)]
      simp
    | succ i =>
      have hi : i < bs.length := by simpa using h
      have := ih (Memory.write m a b) (a + 1) i hi
      rw [Memory.writeBytes, show a + (i + 1) = a + 1 + i by omega, this]
      simp

@[simp] theorem Memory.length_readBytes (m : Memory) (a n : Nat) : (Memory.readBytes m a n).length = n := by
  induction n generalizing a with
  | zero => rfl
  | succ n ih => simp [Memory.readBytes, ih]

theorem Memory.getElem_readBytes (m : Memory) (a n i : Nat) (h : i < (Memory.readBytes m a n).length) :
    (Memory.readBytes m a n)[i] = Memory.read m (a + i) := by
  induction n generalizing a i with
  | zero => simp [Memory.readBytes] at h
  | succ n ih =>
    cases i with
    | zero => simp [Memory.readBytes]
    | succ i =>
      simp only [Memory.readBytes, List.getElem_cons_succ]
      rw [ih, show a + 1 + i = a + (i + 1) by omega]

/-- Two buffers that read the same from `a` to `a + n - 1` give the same run of bytes. -/
theorem Memory.readBytes_congr {m m' : Memory} {a n : Nat} (h : ∀ i, i < n → Memory.read m (a + i) = Memory.read m' (a + i)) :
    Memory.readBytes m a n = Memory.readBytes m' a n := by
  refine List.ext_getElem (by simp) fun i h1 h2 => ?_
  rw [Memory.getElem_readBytes, Memory.getElem_readBytes]
  exact h i (by simpa using h1)

/-! ### The canonical form -/

theorem Memory.wfFrom_cons {lo k : Nat} {b : Byte} {m : Memory} :
    Memory.wfFrom lo ((k, b) :: m) = true ↔ lo ≤ k ∧ k < 256 ∧ b ≠ 0#8 ∧ Memory.wfFrom (k + 1) m = true := by
  simp [Memory.wfFrom, and_assoc]

theorem Memory.wfFrom_mono {lo lo' : Nat} (h : lo ≤ lo') {m : Memory} (hm : Memory.wfFrom lo' m = true) :
    Memory.wfFrom lo m = true := by
  cases m with
  | nil => rfl
  | cons c m =>
    obtain ⟨k, b⟩ := c
    rw [Memory.wfFrom_cons] at hm ⊢
    exact ⟨by omega, hm.2⟩

theorem Memory.wfFrom_erase {lo : Nat} {m : Memory} (a : Nat) (hm : Memory.wfFrom lo m = true) :
    Memory.wfFrom lo (Memory.erase m a) = true := by
  induction m generalizing lo with
  | nil => rfl
  | cons c m ih =>
    obtain ⟨k, b⟩ := c
    rw [Memory.wfFrom_cons] at hm
    by_cases hk : k = a
    · simpa [Memory.erase, hk] using Memory.wfFrom_mono (by omega) (ih hm.2.2.2)
    · simp only [Memory.erase, hk, if_false]
      exact Memory.wfFrom_cons.2 ⟨hm.1, hm.2.1, hm.2.2.1, ih hm.2.2.2⟩

theorem Memory.wfFrom_insert {lo a : Nat} {v : Byte} {m : Memory} (hlo : lo ≤ a) (ha : a < 256) (hv : v ≠ 0#8)
    (hne : ∀ c ∈ m, c.1 ≠ a) (hm : Memory.wfFrom lo m = true) : Memory.wfFrom lo (Memory.insert m a v) = true := by
  induction m generalizing lo with
  | nil => exact Memory.wfFrom_cons.2 ⟨hlo, ha, hv, rfl⟩
  | cons c m ih =>
    obtain ⟨k, b⟩ := c
    have hm' := Memory.wfFrom_cons.1 hm
    have hk : k ≠ a := hne (k, b) List.mem_cons_self
    by_cases hlt : a < k
    · simp only [Memory.insert, hlt, if_true]
      exact Memory.wfFrom_cons.2 ⟨hlo, ha, hv, Memory.wfFrom_cons.2 ⟨by omega, hm'.2⟩⟩
    · simp only [Memory.insert, hlt, if_false]
      exact Memory.wfFrom_cons.2 ⟨hm'.1, hm'.2.1, hm'.2.2.1,
        ih (by omega) (fun c hc => hne c (List.mem_cons_of_mem _ hc)) hm'.2.2.2⟩

/-- A write keeps the canonical form. -/
theorem Memory.wf_write {m : Memory} {a : Nat} (v : Byte) (ha : a < 256) (hm : m.wf = true) :
    (Memory.write m a v).wf = true := by
  by_cases hv : v = 0#8
  · simp only [Memory.write, hv, if_true]
    exact Memory.wfFrom_erase a hm
  · simp only [Memory.write, hv, if_false]
    exact Memory.wfFrom_insert (Nat.zero_le a) ha hv (fun c hc => (Memory.mem_erase hc).1) (Memory.wfFrom_erase a hm)

/-- A run of writes inside the buffer keeps the canonical form. -/
theorem Memory.wf_writeBytes {bs : List Byte} {m : Memory} {a : Nat} (ha : a + bs.length ≤ 256) (hm : m.wf = true) :
    (Memory.writeBytes m a bs).wf = true := by
  induction bs generalizing m a with
  | nil => exact hm
  | cons b bs ih =>
    simp only [List.length_cons] at ha
    exact ih (by omega) (Memory.wf_write b (by omega) hm)

end Sys2Proof.Machine
end

