-- ==== Sys2Proof/Laws/State.lean ====
section
/-! SUPPORT. What each named update of the state leaves in each field, so that no later proof unfolds a record update. -/

namespace Sys2Proof.Machine

section
variable (s : State) (v : Word)

@[simp] theorem State.setCmd_cmd : (s.setCmd v).cmd = v := rfl
@[simp] theorem State.setCmd_status : (s.setCmd v).status = s.status := rfl
@[simp] theorem State.setCmd_ctrl : (s.setCmd v).ctrl = s.ctrl := rfl
@[simp] theorem State.setCmd_f : (s.setCmd v).f = s.f := rfl
@[simp] theorem State.setCmd_inBuf : (s.setCmd v).inBuf = s.inBuf := rfl
@[simp] theorem State.setCmd_inLen : (s.setCmd v).inLen = s.inLen := rfl
@[simp] theorem State.setCmd_outBuf : (s.setCmd v).outBuf = s.outBuf := rfl
@[simp] theorem State.setCmd_outLen : (s.setCmd v).outLen = s.outLen := rfl
@[simp] theorem State.setCmd_hdr : (s.setCmd v).hdr = s.hdr := rfl
@[simp] theorem State.setCmd_pending : (s.setCmd v).pending = s.pending := rfl
@[simp] theorem State.setCmd_replies : (s.setCmd v).replies = s.replies := rfl

end

section
variable (s : State) (v : Status)

@[simp] theorem State.setStatus_cmd : (s.setStatus v).cmd = s.cmd := rfl
@[simp] theorem State.setStatus_status : (s.setStatus v).status = v := rfl
@[simp] theorem State.setStatus_ctrl : (s.setStatus v).ctrl = s.ctrl := rfl
@[simp] theorem State.setStatus_f : (s.setStatus v).f = s.f := rfl
@[simp] theorem State.setStatus_inBuf : (s.setStatus v).inBuf = s.inBuf := rfl
@[simp] theorem State.setStatus_inLen : (s.setStatus v).inLen = s.inLen := rfl
@[simp] theorem State.setStatus_outBuf : (s.setStatus v).outBuf = s.outBuf := rfl
@[simp] theorem State.setStatus_outLen : (s.setStatus v).outLen = s.outLen := rfl
@[simp] theorem State.setStatus_hdr : (s.setStatus v).hdr = s.hdr := rfl
@[simp] theorem State.setStatus_pending : (s.setStatus v).pending = s.pending := rfl
@[simp] theorem State.setStatus_replies : (s.setStatus v).replies = s.replies := rfl

end

section
variable (s : State) (v : Ctrl)

@[simp] theorem State.setCtrl_cmd : (s.setCtrl v).cmd = s.cmd := rfl
@[simp] theorem State.setCtrl_status : (s.setCtrl v).status = s.status := rfl
@[simp] theorem State.setCtrl_ctrl : (s.setCtrl v).ctrl = v := rfl
@[simp] theorem State.setCtrl_f : (s.setCtrl v).f = s.f := rfl
@[simp] theorem State.setCtrl_inBuf : (s.setCtrl v).inBuf = s.inBuf := rfl
@[simp] theorem State.setCtrl_inLen : (s.setCtrl v).inLen = s.inLen := rfl
@[simp] theorem State.setCtrl_outBuf : (s.setCtrl v).outBuf = s.outBuf := rfl
@[simp] theorem State.setCtrl_outLen : (s.setCtrl v).outLen = s.outLen := rfl
@[simp] theorem State.setCtrl_hdr : (s.setCtrl v).hdr = s.hdr := rfl
@[simp] theorem State.setCtrl_pending : (s.setCtrl v).pending = s.pending := rfl
@[simp] theorem State.setCtrl_replies : (s.setCtrl v).replies = s.replies := rfl

end

section
variable (s : State) (v : Word)

@[simp] theorem State.setF_cmd : (s.setF v).cmd = s.cmd := rfl
@[simp] theorem State.setF_status : (s.setF v).status = s.status := rfl
@[simp] theorem State.setF_ctrl : (s.setF v).ctrl = s.ctrl := rfl
@[simp] theorem State.setF_f : (s.setF v).f = v := rfl
@[simp] theorem State.setF_inBuf : (s.setF v).inBuf = s.inBuf := rfl
@[simp] theorem State.setF_inLen : (s.setF v).inLen = s.inLen := rfl
@[simp] theorem State.setF_outBuf : (s.setF v).outBuf = s.outBuf := rfl
@[simp] theorem State.setF_outLen : (s.setF v).outLen = s.outLen := rfl
@[simp] theorem State.setF_hdr : (s.setF v).hdr = s.hdr := rfl
@[simp] theorem State.setF_pending : (s.setF v).pending = s.pending := rfl
@[simp] theorem State.setF_replies : (s.setF v).replies = s.replies := rfl

end

section
variable (s : State) (m : Memory)

@[simp] theorem State.setIn_cmd : (s.setIn m).cmd = s.cmd := rfl
@[simp] theorem State.setIn_status : (s.setIn m).status = s.status := rfl
@[simp] theorem State.setIn_ctrl : (s.setIn m).ctrl = s.ctrl := rfl
@[simp] theorem State.setIn_f : (s.setIn m).f = s.f := rfl
@[simp] theorem State.setIn_inBuf : (s.setIn m).inBuf = m := rfl
@[simp] theorem State.setIn_inLen : (s.setIn m).inLen = s.inLen := rfl
@[simp] theorem State.setIn_outBuf : (s.setIn m).outBuf = s.outBuf := rfl
@[simp] theorem State.setIn_outLen : (s.setIn m).outLen = s.outLen := rfl
@[simp] theorem State.setIn_hdr : (s.setIn m).hdr = s.hdr := rfl
@[simp] theorem State.setIn_pending : (s.setIn m).pending = s.pending := rfl
@[simp] theorem State.setIn_replies : (s.setIn m).replies = s.replies := rfl

end

section
variable (s : State) (n : BufLen)

@[simp] theorem State.setInLen_cmd : (s.setInLen n).cmd = s.cmd := rfl
@[simp] theorem State.setInLen_status : (s.setInLen n).status = s.status := rfl
@[simp] theorem State.setInLen_ctrl : (s.setInLen n).ctrl = s.ctrl := rfl
@[simp] theorem State.setInLen_f : (s.setInLen n).f = s.f := rfl
@[simp] theorem State.setInLen_inBuf : (s.setInLen n).inBuf = s.inBuf := rfl
@[simp] theorem State.setInLen_inLen : (s.setInLen n).inLen = n := rfl
@[simp] theorem State.setInLen_outBuf : (s.setInLen n).outBuf = s.outBuf := rfl
@[simp] theorem State.setInLen_outLen : (s.setInLen n).outLen = s.outLen := rfl
@[simp] theorem State.setInLen_hdr : (s.setInLen n).hdr = s.hdr := rfl
@[simp] theorem State.setInLen_pending : (s.setInLen n).pending = s.pending := rfl
@[simp] theorem State.setInLen_replies : (s.setInLen n).replies = s.replies := rfl

end

section
variable (s : State) (m : Memory) (n : BufLen)

@[simp] theorem State.setOut_cmd : (s.setOut m n).cmd = s.cmd := rfl
@[simp] theorem State.setOut_status : (s.setOut m n).status = s.status := rfl
@[simp] theorem State.setOut_ctrl : (s.setOut m n).ctrl = s.ctrl := rfl
@[simp] theorem State.setOut_f : (s.setOut m n).f = s.f := rfl
@[simp] theorem State.setOut_inBuf : (s.setOut m n).inBuf = s.inBuf := rfl
@[simp] theorem State.setOut_inLen : (s.setOut m n).inLen = s.inLen := rfl
@[simp] theorem State.setOut_outBuf : (s.setOut m n).outBuf = m := rfl
@[simp] theorem State.setOut_outLen : (s.setOut m n).outLen = n := rfl
@[simp] theorem State.setOut_hdr : (s.setOut m n).hdr = s.hdr := rfl
@[simp] theorem State.setOut_pending : (s.setOut m n).pending = s.pending := rfl
@[simp] theorem State.setOut_replies : (s.setOut m n).replies = s.replies := rfl

end

section
variable (s : State) (h : Hdr)

@[simp] theorem State.setHdr_cmd : (s.setHdr h).cmd = s.cmd := rfl
@[simp] theorem State.setHdr_status : (s.setHdr h).status = s.status := rfl
@[simp] theorem State.setHdr_ctrl : (s.setHdr h).ctrl = s.ctrl := rfl
@[simp] theorem State.setHdr_f : (s.setHdr h).f = s.f := rfl
@[simp] theorem State.setHdr_inBuf : (s.setHdr h).inBuf = s.inBuf := rfl
@[simp] theorem State.setHdr_inLen : (s.setHdr h).inLen = s.inLen := rfl
@[simp] theorem State.setHdr_outBuf : (s.setHdr h).outBuf = s.outBuf := rfl
@[simp] theorem State.setHdr_outLen : (s.setHdr h).outLen = s.outLen := rfl
@[simp] theorem State.setHdr_hdr : (s.setHdr h).hdr = h := rfl
@[simp] theorem State.setHdr_pending : (s.setHdr h).pending = s.pending := rfl
@[simp] theorem State.setHdr_replies : (s.setHdr h).replies = s.replies := rfl

end

section
variable (s : State) (es : List HostEvent)

@[simp] theorem State.setPending_cmd : (s.setPending es).cmd = s.cmd := rfl
@[simp] theorem State.setPending_status : (s.setPending es).status = s.status := rfl
@[simp] theorem State.setPending_ctrl : (s.setPending es).ctrl = s.ctrl := rfl
@[simp] theorem State.setPending_f : (s.setPending es).f = s.f := rfl
@[simp] theorem State.setPending_inBuf : (s.setPending es).inBuf = s.inBuf := rfl
@[simp] theorem State.setPending_inLen : (s.setPending es).inLen = s.inLen := rfl
@[simp] theorem State.setPending_outBuf : (s.setPending es).outBuf = s.outBuf := rfl
@[simp] theorem State.setPending_outLen : (s.setPending es).outLen = s.outLen := rfl
@[simp] theorem State.setPending_hdr : (s.setPending es).hdr = s.hdr := rfl
@[simp] theorem State.setPending_pending : (s.setPending es).pending = es := rfl
@[simp] theorem State.setPending_replies : (s.setPending es).replies = s.replies := rfl

end

section
variable (s : State) (vs : List Word)

@[simp] theorem State.setReplies_cmd : (s.setReplies vs).cmd = s.cmd := rfl
@[simp] theorem State.setReplies_status : (s.setReplies vs).status = s.status := rfl
@[simp] theorem State.setReplies_ctrl : (s.setReplies vs).ctrl = s.ctrl := rfl
@[simp] theorem State.setReplies_f : (s.setReplies vs).f = s.f := rfl
@[simp] theorem State.setReplies_inBuf : (s.setReplies vs).inBuf = s.inBuf := rfl
@[simp] theorem State.setReplies_inLen : (s.setReplies vs).inLen = s.inLen := rfl
@[simp] theorem State.setReplies_outBuf : (s.setReplies vs).outBuf = s.outBuf := rfl
@[simp] theorem State.setReplies_outLen : (s.setReplies vs).outLen = s.outLen := rfl
@[simp] theorem State.setReplies_hdr : (s.setReplies vs).hdr = s.hdr := rfl
@[simp] theorem State.setReplies_pending : (s.setReplies vs).pending = s.pending := rfl
@[simp] theorem State.setReplies_replies : (s.setReplies vs).replies = vs := rfl

end

section
variable (s : State) (e : ResultCode)

@[simp] theorem State.epilogue_cmd : (s.epilogue e).cmd = s.cmd := rfl
@[simp] theorem State.epilogue_status : (s.epilogue e).status = s.status.afterCommand e := rfl
@[simp] theorem State.epilogue_ctrl : (s.epilogue e).ctrl = s.ctrl := rfl
@[simp] theorem State.epilogue_f : (s.epilogue e).f = s.f := rfl
@[simp] theorem State.epilogue_inBuf : (s.epilogue e).inBuf = s.inBuf := rfl
@[simp] theorem State.epilogue_inLen : (s.epilogue e).inLen = s.inLen := rfl
@[simp] theorem State.epilogue_outBuf : (s.epilogue e).outBuf = s.outBuf := rfl
@[simp] theorem State.epilogue_outLen : (s.epilogue e).outLen = s.outLen := rfl
@[simp] theorem State.epilogue_hdr : (s.epilogue e).hdr = s.hdr := rfl
@[simp] theorem State.epilogue_pending : (s.epilogue e).pending = s.pending := rfl
@[simp] theorem State.epilogue_replies : (s.epilogue e).replies = s.replies := rfl

end

section
variable (s : State)

@[simp] theorem State.markOddDrop_cmd : s.markOddDrop.cmd = s.cmd := rfl
@[simp] theorem State.markOddDrop_status : s.markOddDrop.status = { s.status with oddDrop := true } := rfl
@[simp] theorem State.markOddDrop_ctrl : s.markOddDrop.ctrl = s.ctrl := rfl
@[simp] theorem State.markOddDrop_f : s.markOddDrop.f = s.f := rfl
@[simp] theorem State.markOddDrop_inBuf : s.markOddDrop.inBuf = s.inBuf := rfl
@[simp] theorem State.markOddDrop_inLen : s.markOddDrop.inLen = s.inLen := rfl
@[simp] theorem State.markOddDrop_outBuf : s.markOddDrop.outBuf = s.outBuf := rfl
@[simp] theorem State.markOddDrop_outLen : s.markOddDrop.outLen = s.outLen := rfl
@[simp] theorem State.markOddDrop_hdr : s.markOddDrop.hdr = s.hdr := rfl
@[simp] theorem State.markOddDrop_pending : s.markOddDrop.pending = s.pending := rfl
@[simp] theorem State.markOddDrop_replies : s.markOddDrop.replies = s.replies := rfl

end

section
variable (st : Status) (e : ResultCode)

@[simp] theorem Status.afterCommand_err : (st.afterCommand e).err = e.code := rfl
@[simp] theorem Status.afterCommand_anyErr : (st.afterCommand e).anyErr = (st.anyErr || e.code != 0#4) := rfl
@[simp] theorem Status.afterCommand_oddDrop : (st.afterCommand e).oddDrop = st.oddDrop := rfl

end

section
variable (st : Status) (v : Word)

@[simp] theorem Status.writeOneToClear_err : (st.writeOneToClear v).err = st.err := rfl
@[simp] theorem Status.writeOneToClear_anyErr :
    (st.writeOneToClear v).anyErr = (st.anyErr && !v.getLsbD 8) := rfl
@[simp] theorem Status.writeOneToClear_oddDrop :
    (st.writeOneToClear v).oddDrop = (st.oddDrop && !v.getLsbD 9) := rfl

end

end Sys2Proof.Machine
end

