-- ==== Sys2Proof/Laws/Ops.lean ====
section
/-! SUPPORT. What each shared operation and each meaning can do, said once: later proofs cite these and do not unfold the
operations. -/

namespace Sys2Proof.Machine

theorem inputHolds_iff (s : State) (off n : Nat) : s.inputHolds off n = true ↔ off + n ≤ s.inLen.val := by
  simp [State.inputHolds]

@[simp] theorem raise_next (e : ResultCode) (s t : State) : raise e s = .next t ↔ t = s.epilogue e := by
  simp [raise, eq_comm]

@[simp] theorem complete_next (s t : State) : complete s = .next t ↔ t = s.epilogue .ok := by
  simp [complete, eq_comm]

/-- The bytes fit: the append happens. -/
theorem outAppend_of_le {s : State} {bs : List Byte} (h : s.outLen.val + bs.length ≤ 256) :
    s.outAppend bs = some (s.setOut (s.outBuf.writeBytes s.outLen.val bs)
      ⟨s.outLen.val + bs.length, Nat.lt_succ_of_le h⟩) := by
  simp [State.outAppend, h]

/-- The bytes do not fit: nothing happens (R50). -/
theorem outAppend_of_gt {s : State} {bs : List Byte} (h : 256 < s.outLen.val + bs.length) :
    s.outAppend bs = none := by
  simp [State.outAppend, Nat.not_le.2 h]

/-- All that an append which succeeds can do. -/
theorem outAppend_some {s t : State} {bs : List Byte} (h : s.outAppend bs = some t) :
    t.outLen.val = s.outLen.val + bs.length ∧ t.outBuf = s.outBuf.writeBytes s.outLen.val bs ∧
      t = s.setOut t.outBuf t.outLen := by
  unfold State.outAppend at h
  split at h
  · cases h
    exact ⟨rfl, rfl, rfl⟩
  · cases h

/-- `appendOrOvf` succeeds with the bytes appended, or raises OVF on the state as it was. -/
theorem appendOrOvf_cases {s t : State} {bs : List Byte} (h : appendOrOvf bs s = .next t) :
    (∃ u, s.outAppend bs = some u ∧ t = u.epilogue .ok) ∨
      (256 < s.outLen.val + bs.length ∧ t = s.epilogue .ovf) := by
  unfold appendOrOvf at h
  cases hu : s.outAppend bs with
  | some u => exact .inl ⟨u, rfl, by simpa [hu] using h⟩
  | none =>
    refine .inr ⟨?_, by simpa [hu] using h⟩
    by_contra hle
    rw [outAppend_of_le (by omega)] at hu
    cases hu

/-- Every command ends in one of two ways: it raises an error on the state as it was, or it succeeds with its writes
made (R11, R97). -/
theorem exec_raises_or_completes (i : Instr) (s : State) :
    (∃ e, e ≠ .ok ∧ exec i s = raise e s) ∨ ∃ u, exec i s = complete u := by
  have append (bs : List Byte) :
      (∃ e, e ≠ ResultCode.ok ∧ appendOrOvf bs s = raise e s) ∨ ∃ u, appendOrOvf bs s = complete u := by
    unfold appendOrOvf
    cases s.outAppend bs with
    | some u => exact .inr ⟨u, rfl⟩
    | none => exact .inl ⟨.ovf, by decide, rfl⟩
  cases i with
  | nop => exact .inr ⟨_, rfl⟩
  | fdec off =>
    simp only [exec, execFdec]
    split
    · exact .inr ⟨_, rfl⟩
    · exact .inl ⟨.trunc, by decide, rfl⟩
  | fenc => exact append _
  | wenc off cnt =>
    simp only [exec, execWenc]
    split
    · exact append _
    · exact .inl ⟨.trunc, by decide, rfl⟩
  | wdec off cnt =>
    simp only [exec, execWdec]
    split
    · exact .inl ⟨.trunc, by decide, rfl⟩
    · split
      · exact .inl ⟨.oddlen, by decide, rfl⟩
      · split
        · exact .inl ⟨.ovf, by decide, rfl⟩
        · exact .inr ⟨_, rfl⟩
  | hpack => exact append _
  | hunpack off =>
    simp only [exec, execHunpack]
    split
    · exact .inr ⟨_, rfl⟩
    · exact .inl ⟨.trunc, by decide, rfl⟩
  | batset chg tol => exact .inr ⟨_, rfl⟩
  | seqinc => exact .inr ⟨_, rfl⟩
  | emit8 imm => exact append _
  | oclr => exact .inr ⟨_, rfl⟩

end Sys2Proof.Machine
end

