-- ==== Sys2Proof/Laws/PerInstr.lean ====
section
/-! SUPPORT. The per-instruction family MatchMask: the word of a command has, under its row's mask, its row's match value
(R63). -/

namespace Sys2Proof.Laws

/-- The row of the opcode map a command belongs to selects the command's word (R63). -/
def MatchMask.Statement (i : Instr) : Prop := i.row.selects (encode i) = true

/-- A row selects a built word iff each field does. -/
theorem selects_wordOf (r : OpRow) (o a b c : Byte) :
    r.selects (wordOf o a b c) = true ↔
      o &&& opc r.mask = opc r.pattern ∧ a &&& fa r.mask = fa r.pattern ∧
        b &&& fb r.mask = fb r.pattern ∧ c &&& fc r.mask = fc r.pattern := by
  rw [OpRow.selects, beq_iff_eq, eq_iff_fields, opc_and, fa_and, fb_and, fc_and, opc_wordOf, fa_wordOf, fb_wordOf,
    fc_wordOf]

/-- A field the mask does not keep may hold anything. -/
theorem free_field (x m p : Byte) (hm : m = 0#8) (hp : p = 0#8) : x &&& m = p := by
  rw [hm, hp, BitVec.and_zero]

theorem MatchMask.nop : MatchMask.Statement .nop :=
  (selects_wordOf Instr.nop.row 0x00#8 0#8 0#8 0#8).2 (by decide)

theorem MatchMask.fdec (off : Byte) : MatchMask.Statement (.fdec off) :=
  (selects_wordOf (Instr.fdec off).row 0x01#8 off 0#8 0#8).2
    ⟨(by decide : 0x01#8 &&& opc 0xFF00FFFF#32 = opc 0x01000000#32),
      free_field off (fa 0xFF00FFFF#32) (fa 0x01000000#32) (by decide) (by decide),
      (by decide : 0#8 &&& fb 0xFF00FFFF#32 = fb 0x01000000#32),
      (by decide : 0#8 &&& fc 0xFF00FFFF#32 = fc 0x01000000#32)⟩

theorem MatchMask.fenc : MatchMask.Statement .fenc :=
  (selects_wordOf Instr.fenc.row 0x02#8 0#8 0#8 0#8).2 (by decide)

theorem MatchMask.wenc (off cnt : Byte) : MatchMask.Statement (.wenc off cnt) :=
  (selects_wordOf (Instr.wenc off cnt).row 0x10#8 off cnt 0#8).2
    ⟨(by decide : 0x10#8 &&& opc 0xFF0000FF#32 = opc 0x10000000#32),
      free_field off (fa 0xFF0000FF#32) (fa 0x10000000#32) (by decide) (by decide),
      free_field cnt (fb 0xFF0000FF#32) (fb 0x10000000#32) (by decide) (by decide),
      (by decide : 0#8 &&& fc 0xFF0000FF#32 = fc 0x10000000#32)⟩

theorem MatchMask.wdec (off cnt : Byte) : MatchMask.Statement (.wdec off cnt) :=
  (selects_wordOf (Instr.wdec off cnt).row 0x11#8 off cnt 0#8).2
    ⟨(by decide : 0x11#8 &&& opc 0xFF0000FF#32 = opc 0x11000000#32),
      free_field off (fa 0xFF0000FF#32) (fa 0x11000000#32) (by decide) (by decide),
      free_field cnt (fb 0xFF0000FF#32) (fb 0x11000000#32) (by decide) (by decide),
      (by decide : 0#8 &&& fc 0xFF0000FF#32 = fc 0x11000000#32)⟩

theorem MatchMask.hpack : MatchMask.Statement .hpack :=
  (selects_wordOf Instr.hpack.row 0x20#8 0#8 0#8 0#8).2 (by decide)

theorem MatchMask.hunpack (off : Byte) : MatchMask.Statement (.hunpack off) :=
  (selects_wordOf (Instr.hunpack off).row 0x21#8 off 0#8 0#8).2
    ⟨(by decide : 0x21#8 &&& opc 0xFF00FFFF#32 = opc 0x21000000#32),
      free_field off (fa 0xFF00FFFF#32) (fa 0x21000000#32) (by decide) (by decide),
      (by decide : 0#8 &&& fb 0xFF00FFFF#32 = fb 0x21000000#32),
      (by decide : 0#8 &&& fc 0xFF00FFFF#32 = fc 0x21000000#32)⟩

theorem MatchMask.batset (chg tol : Byte) : MatchMask.Statement (.batset chg tol) :=
  (selects_wordOf (Instr.batset chg tol).row 0x22#8 0#8 chg tol).2
    ⟨(by decide : 0x22#8 &&& opc 0xFFFF0000#32 = opc 0x22000000#32),
      (by decide : 0#8 &&& fa 0xFFFF0000#32 = fa 0x22000000#32),
      free_field chg (fb 0xFFFF0000#32) (fb 0x22000000#32) (by decide) (by decide),
      free_field tol (fc 0xFFFF0000#32) (fc 0x22000000#32) (by decide) (by decide)⟩

theorem MatchMask.seqinc : MatchMask.Statement .seqinc :=
  (selects_wordOf Instr.seqinc.row 0x23#8 0#8 0#8 0#8).2 (by decide)

theorem MatchMask.emit8 (imm : Byte) : MatchMask.Statement (.emit8 imm) :=
  (selects_wordOf (Instr.emit8 imm).row 0x30#8 0#8 0#8 imm).2
    ⟨(by decide : 0x30#8 &&& opc 0xFFFFFF00#32 = opc 0x30000000#32),
      (by decide : 0#8 &&& fa 0xFFFFFF00#32 = fa 0x30000000#32),
      (by decide : 0#8 &&& fb 0xFFFFFF00#32 = fb 0x30000000#32),
      free_field imm (fc 0xFFFFFF00#32) (fc 0x30000000#32) (by decide) (by decide)⟩

theorem MatchMask.oclr : MatchMask.Statement .oclr :=
  (selects_wordOf Instr.oclr.row 0x31#8 0#8 0#8 0#8).2 (by decide)

end Sys2Proof.Laws
end

