-- ==== Sys2Proof/Laws/Port.lean ====
section
/-! SUPPORT. The address map of the host port and the shape of a step. -/

namespace Sys2Proof.Machine

/-- A register's address names it (R28). -/
@[simp] theorem portTarget_regAddr (r : Reg) : portTarget (regAddr r) = .reg r := by
  cases r <;> decide

/-- The register an address names has that address. -/
theorem regAt_some {a : PortAddr} {r : Reg} (h : regAt a = some r) : regAddr r = a := by
  simpa using List.find?_some h

/-- All that the address decode can answer (R41). -/
theorem portTarget_cases (a : PortAddr) :
    (∃ r, portTarget a = .reg r ∧ a = regAddr r) ∨
      (∃ i, i < 256 ∧ portTarget a = .inByte i ∧ a.toNat = 0x100 + i) ∨
      (∃ i, i < 256 ∧ portTarget a = .outByte i ∧ a.toNat = 0x200 + i) ∨
      (portTarget a = .unmapped ∧ ((a.toNat < 0x100 ∧ regAt a = none) ∨ 0x300 ≤ a.toNat)) := by
  unfold portTarget
  split
  · cases h : regAt a with
    | some r => exact .inl ⟨r, rfl, (regAt_some h).symm⟩
    | none => exact .inr (.inr (.inr ⟨rfl, .inl ⟨‹_›, rfl⟩⟩))
  · split
    · exact .inr (.inl ⟨_, by omega, rfl, by omega⟩)
    · split
      · exact .inr (.inr (.inl ⟨_, by omega, rfl, by omega⟩))
      · exact .inr (.inr (.inr ⟨rfl, .inr (by omega)⟩))

/-- Only address 0x000 names CMD. -/
theorem portTarget_eq_cmd {a : PortAddr} : portTarget a = .reg .cmd ↔ a = 0x000#10 := by
  constructor
  · intro h
    rcases portTarget_cases a with ⟨r, hr, ha⟩ | ⟨i, _, hr, _⟩ | ⟨i, _, hr, _⟩ | ⟨hr, _⟩ <;> rw [hr] at h <;> cases h
    exact ha
  · rintro rfl
    decide

/-- With nothing pending a step does nothing. -/
theorem step_of_nil {s : State} (h : s.pending = []) : step s = .next s := by
  simp [step, nextEvent, h]

/-- A step takes the next pending event. -/
theorem step_of_cons {s : State} {e : HostEvent} {es : List HostEvent} (h : s.pending = e :: es) :
    step s = transact e (s.setPending es) := by
  simp [step, nextEvent, h]

/-- A write to CMD executes the word (R35). -/
theorem hostWrite_cmd (w : Word) (s : State) : hostWrite 0x000#10 w s = execute w s := by
  have h : portTarget 0x000#10 = .reg .cmd := by decide
  simp [hostWrite, h]

/-- A write to any other address stores by its rule (R42). -/
theorem hostWrite_other {a : PortAddr} (h : a ≠ 0x000#10) (v : Word) (s : State) :
    hostWrite a v s = .next (storeAt (portTarget a) v s) := by
  simp [hostWrite, mt portTarget_eq_cmd.1 h]

end Sys2Proof.Machine
end

