-- ==== Sys2Proof/Laws/Step.lean ====
section
/-! SUPPORT. All that an execution, a step and a run can do, said once. -/

namespace Sys2Proof.Machine

/-- An execution runs the command the word decodes to, or raises ILLEGAL; in both cases CMD holds the word first. -/
theorem execute_cases {w : Word} {s t : State} (h : execute w s = .next t) :
    (∃ i, decode w = .command i ∧ exec i (s.setCmd w) = .next t) ∨
      ∃ why, decode w = .illegal why ∧ t = (s.setCmd w).epilogue .illegal := by
  unfold execute at h
  split at h
  · exact .inl ⟨_, ‹_›, h⟩
  · exact .inr ⟨_, ‹_›, by simpa [raise, eq_comm] using h⟩

/-- A step does nothing when no event is pending; else it answers a read, executes a command word, stores a value, or
resets. -/
theorem step_cases {s t : State} (h : step s = .next t) :
    (s.pending = [] ∧ t = s) ∨
    (∃ a rest, s.pending = .read a :: rest ∧
      t = { s with pending := rest, replies := s.replies ++ [hostRead a s] }) ∨
    (∃ w rest, s.pending = .write 0x000#10 w :: rest ∧ execute w (s.setPending rest) = .next t) ∨
    (∃ a v rest, a ≠ 0x000#10 ∧ s.pending = .write a v :: rest ∧
      t = storeAt (portTarget a) v (s.setPending rest)) ∨
    (∃ rest, s.pending = .rst :: rest ∧ t = assertReset (s.setPending rest)) := by
  cases hp : s.pending with
  | nil =>
    rw [step_of_nil hp] at h
    cases h
    exact .inl ⟨rfl, rfl⟩
  | cons e es =>
    rw [step_of_cons hp] at h
    cases e with
    | read a =>
      cases h
      exact .inr (.inl ⟨a, es, rfl, rfl⟩)
    | rst =>
      cases h
      exact .inr (.inr (.inr (.inr ⟨es, rfl, rfl⟩)))
    | write a v =>
      simp only [transact] at h
      by_cases ha : a = 0x000#10
      · subst ha
        rw [hostWrite_cmd] at h
        exact .inr (.inr (.inl ⟨v, es, rfl, h⟩))
      · rw [hostWrite_other ha] at h
        cases h
        exact .inr (.inr (.inr (.inl ⟨a, v, es, ha, rfl, rfl⟩)))

/-- A run of one more step starts with that step. -/
theorem run_succ (n : Nat) {s t : State} (h : step s = .next t) : core.run (n + 1) s = core.run n t := by
  show Host.Core.run core (n + 1) (s : core.State) = _
  have : core.step s = .next t := h
  simp only [Host.Core.run, this]

end Sys2Proof.Machine
end

