-- ==== Sys2Proof/Laws/Wide.lean ====
section
/-! SUPPORT. The wide-byte helpers: how long an encoded or decoded array is and what stands at each index. -/

namespace Sys2Proof.Machine

@[simp] theorem length_wideEncode (cs : List Byte) : (wideEncode cs).length = 2 * cs.length := by
  induction cs with
  | nil => rfl
  | cons c cs ih =>
    simp [wideEncode, ih]
    omega

/-- Byte `2i` of the wide form is 0x00 and byte `2i + 1` is character `i` (R78). -/
theorem getElem_wideEncode (cs : List Byte) (i : Nat) (h : i < cs.length) :
    (wideEncode cs)[2 * i]? = some 0x00#8 ∧ (wideEncode cs)[2 * i + 1]? = some cs[i] := by
  induction cs generalizing i with
  | nil => simp at h
  | cons c cs ih =>
    cases i with
    | zero => simp [wideEncode]
    | succ i =>
      have := ih i (by simpa using h)
      rw [show 2 * (i + 1) = 2 * i + 1 + 1 by omega]
      simpa [wideEncode] using this

/-- A decoded array has one character for each whole pair. -/
theorem length_wideDecode : ∀ cs : List Byte, (wideDecode cs).length = cs.length / 2
  | [] => rfl
  | [_] => by simp [wideDecode]
  | _ :: _ :: cs => by
    simp [wideDecode, length_wideDecode cs]
    omega

/-- Character `j` of a decoded array is the second byte of pair `j` (R80). -/
theorem getElem_wideDecode : ∀ (j : Nat) (cs : List Byte) (h : 2 * j + 1 < cs.length),
    (wideDecode cs)[j]? = some cs[2 * j + 1]
  | 0, _ :: _ :: _, _ => by simp [wideDecode]
  | j + 1, _ :: _ :: cs, h => by
    have := getElem_wideDecode j cs (by simp at h; omega)
    simp only [wideDecode, List.getElem?_cons_succ, this]
    congr 1
  | 0, [_], h => by simp at h
  | _ + 1, [_], h => by simp at h
  | _, [], h => by simp at h

end Sys2Proof.Machine
end

