-- ==== Sys2Proof/Tests/Slice0.lean ====
section
/-! SUPPORT. Tests of our own. Expected values come from the vectors of 95_test_vectors.md (named in the comments) or are
worked by hand from the rule cited. A theorem `witness_…` shows a concrete state that meets the hypotheses of a statement
of Obligations.lean. -/

namespace Sys2Proof.Tests

open Sys2Proof Sys2Proof.Machine

/-! ### Helpers -/

/-- The next state, if there is one. -/
def after (r : Result) : Option State :=
  match r with
  | .next s => some s
  | .fault _ => none
  | .refused _ => none

/-- The reset state of an implementation with both OPEN ids 0, and host events to come. -/
def host (es : List HostEvent) : State := { State.resetWith 0#8 0#8 with pending := es }

/-- The same with bytes at `IN[at ..]` and IN_LEN. -/
def withIn (start : Nat) (bytes : List Byte) (n : BufLen) : State :=
  { host [] with inBuf := Memory.writeBytes [] start bytes, inLen := n }

/-- The same with OUT_LEN. -/
def withOutLen (s : State) (n : BufLen) : State := { s with outLen := n }

/-- STATUS as the host reads it after a result. -/
def statusOf (r : Result) : Option Word := (after r).map fun s => s.status.word

/-- OUT bytes from an index on, and OUT_LEN, after a result. -/
def outOf (r : Result) (start n : Nat) : Option (List Byte × Nat) :=
  (after r).map fun s => (s.outBuf.readBytes start n, s.outLen.val)

/-! ### WellFormed: an ill-formed line for each check -/

theorem test_wf_offset : AsmLine.wf (.fdec 255) = true ∧ AsmLine.wf (.fdec 256) = false := by decide
theorem test_wf_wenc_count : AsmLine.wf (.wenc 0 255) = true ∧ AsmLine.wf (.wenc 0 256) = false := by decide
theorem test_wf_wenc_offset : AsmLine.wf (.wenc 256 0) = false := by decide
theorem test_wf_wdec : AsmLine.wf (.wdec 256 0) = false ∧ AsmLine.wf (.wdec 0 256) = false := by decide
theorem test_wf_hunpack : AsmLine.wf (.hunpack 256) = false := by decide
theorem test_wf_batset : AsmLine.wf (.batset 256 0) = false ∧ AsmLine.wf (.batset 0 256) = false := by decide
theorem test_wf_emit8 : AsmLine.wf (.emit8 256) = false := by decide
theorem test_wf_emit16 : AsmLine.wf (.emit16 65535) = true ∧ AsmLine.wf (.emit16 65536) = false := by decide
theorem test_wf_emit32 : AsmLine.wf (.emit32 4294967296) = false := by decide
theorem test_wf_fcopy : AsmLine.wf (.fcopy 256) = false := by decide
theorem test_wf_write_value : AsmLine.wf (.write (.reg .f) 4294967296) = false := by decide
theorem test_wf_window_index : AsmLine.wf (.write (.inByte 256) 0) = false ∧ AsmLine.wf (.read (.outByte 256)) = false := by
  decide
theorem test_wf_port_address : AsmLine.wf (.read (.addr 1023)) = true ∧ AsmLine.wf (.read (.addr 1024)) = false := by
  decide
theorem test_wf_load_byte : AsmLine.wf (.load [255]) = true ∧ AsmLine.wf (.load [256]) = false := by decide
theorem test_wf_load_length : AsmLine.wf (.load (List.replicate 257 0)) = false := by decide +kernel

/-! ### Decode: words written out from the formats of R61 and the opcodes of R63 -/

theorem test_decode_nop : decode 0x00000000#32 = .command .nop := by decide
theorem test_decode_fdec : decode 0x01450000#32 = .command (.fdec 69#8) := by decide
theorem test_decode_fenc : decode 0x02000000#32 = .command .fenc := by decide
theorem test_decode_wenc : decode 0x10010E00#32 = .command (.wenc 1#8 14#8) := by decide
theorem test_decode_wdec : decode 0x11261C00#32 = .command (.wdec 38#8 28#8) := by decide
theorem test_decode_hpack : decode 0x20000000#32 = .command .hpack := by decide
theorem test_decode_hunpack : decode 0x21DE0000#32 = .command (.hunpack 222#8) := by decide
theorem test_decode_batset : decode 0x2200500A#32 = .command (.batset 80#8 10#8) := by decide
theorem test_decode_seqinc : decode 0x23000000#32 = .command .seqinc := by decide
theorem test_decode_emit8 : decode 0x30000005#32 = .command (.emit8 5#8) := by decide
theorem test_decode_oclr : decode 0x31000000#32 = .command .oclr := by decide

/-- Illegal words of vectors F15, F18, W10, D10, H9, H15, H16, O5, O7, O8 and section 2.5. -/
theorem test_decode_illegal : ([0x01FF0001#32, 0x02000001#32, 0x10000101#32, 0x11000201#32, 0x21000100#32, 0x23000001#32,
    0x22015000#32, 0x30000105#32, 0x00000001#32, 0x31800000#32, 0x01000100#32, 0x20000001#32, 0x03000000#32,
    0x0F000000#32, 0x12000000#32, 0x1F000000#32, 0x24000000#32, 0x2F000000#32, 0x32000000#32, 0xFF000000#32,
    0xFFFFFFFF#32].all fun w => (decode w).instr? == none) = true := by decide

theorem test_decodeTableWord : decodeTableWord 32 0x11261C00 = some (.wdec 38#8 28#8) := by decide

/-- The eleven rows of the opcode map select different words: under two rows' common mask, their patterns differ. -/
theorem test_opcodeMap_no_overlap : List.Pairwise
    (fun r q => r.pattern &&& (r.mask &&& q.mask) ≠ q.pattern &&& (r.mask &&& q.mask)) opcodeMap := by
  decide

/-! ### The commands, one step each -/

/-- O6. -/
theorem test_nop : statusOf (exec .nop { host [] with status := ⟨1#4, true, false⟩ }) = some 0x100#32 := by decide

/-- F13: the last offset that fits IN. -/
theorem test_fdec_last : (after (exec (.fdec 252#8) (withIn 252 [1#8, 2#8, 3#8, 4#8] 256))).map (fun s => s.f)
    = some 0x01020304#32 := by decide

/-- F14: the sum is taken without wrap. -/
theorem test_fdec_trunc : (after (exec (.fdec 253#8) { withIn 252 [1#8, 2#8, 3#8, 4#8] 256 with f := 0x01020304#32 })).map
    (fun s => (s.f, s.status.word)) = some (0x01020304#32, 0x101#32) := by decide

/-- F16. -/
theorem test_fenc_last : outOf (exec .fenc { withOutLen (host []) 252 with f := 0xC3889333#32 }) 252 4
    = some ([0xC3#8, 0x88#8, 0x93#8, 0x33#8], 256) := by decide

/-- F17. -/
theorem test_fenc_ovf : statusOf (exec .fenc (withOutLen (host []) 253)) = some 0x103#32 := by decide

/-- W3: no ASCII check. -/
theorem test_wenc : outOf (exec (.wenc 0#8 3#8) (withIn 0 [0x80#8, 0x00#8, 0xFF#8] 3)) 0 6
    = some ([0x00#8, 0x80#8, 0x00#8, 0x00#8, 0x00#8, 0xFF#8], 6) := by decide

/-- W2 and W9: TRUNC with a zero count beyond IN_LEN, OVF one byte short of room. -/
theorem test_wenc_errors : statusOf (exec (.wenc 5#8 0#8) (withIn 0 [] 4)) = some 0x101#32 ∧
    statusOf (exec (.wenc 0#8 1#8) (withOutLen (withIn 0 [] 1) 255)) = some 0x103#32 := by decide

/-- D1: the first byte of each pair is ignored. -/
theorem test_wdec : outOf (exec (.wdec 0#8 4#8) (withIn 0 [0x12#8, 0x41#8, 0xFF#8, 0x42#8] 4)) 0 2
    = some ([0x41#8, 0x42#8], 2) := by decide

/-- S17 in both modes, and D5: TRUNC wins over ODDLEN. -/
theorem test_wdec_odd : statusOf (exec (.wdec 0#8 3#8) (withIn 0 [0#8, 0x41#8, 0#8] 3)) = some 0x102#32 ∧
    statusOf (exec (.wdec 0#8 3#8) { withIn 0 [0#8, 0x41#8, 0#8] 3 with ctrl := ⟨true⟩ }) = some 0x200#32 ∧
    statusOf (exec (.wdec 0#8 3#8) (withIn 0 [] 2)) = some 0x101#32 := by decide

/-- S12, its first and last bytes, the OPEN ids being 0xA1 and 0xB2. -/
theorem test_hpack : outOf (exec .hpack (State.resetWith 0xA1#8 0xB2#8)) 16 18
    = some ([0x00#8, 0x11#8, 0x01#8, 0x00#8, 0x03#8, 0xA1#8, 0x02#8, 0x00#8, 0x00#8, 0xB2#8, 0x07#8, 0x41#8, 0x00#8,
      0x64#8, 0x00#8, 0x00#8, 0x00#8, 0x0A#8], 34) := by decide +kernel

/-- H3. -/
theorem test_hpack_ovf : statusOf (exec .hpack (withOutLen (host []) 223)) = some 0x103#32 := by decide

/-- The 34 bytes 00 01 02 ... 21 of H4. -/
def countingBytes : List Byte := (List.range 34).map fun n => BitVec.ofNat 8 n

/-- H7: H4's field values at the last offset that fits. -/
theorem test_hunpack : (after (exec (.hunpack 222#8) (withIn 222 countingBytes 256))).map (fun s => s.hdr) = some
    { tver := 0x0001#16, tag := ⟨2#8, 3#8, 4#8, 5#8, 6#8, 7#8⟩, ap := ⟨8#8, 9#8, 0xA#8, 0xB#8, 0xC#8, 0xD#8⟩,
      seq := 0x0E0F#16, cver := 0x10#8, pwr := 0x11#8, chan := 0x12#8, rcls := 0x13#8, burst := 0x14#8,
      sysid := 0x15#8, syslen := 0x16#8, ptype := 0x1718#16, batid := 0x19#8, batlen := 0x1A#8, pct := 0x1B#8,
      days := 0x1C1D#16, age := 0x1E1F2021#32 } := by decide +kernel

/-- H8. -/
theorem test_hunpack_trunc : statusOf (exec (.hunpack 223#8) (withIn 0 [] 256)) = some 0x101#32 := by decide

/-- Rows of table B1. -/
theorem test_batset_table : packPercent 80#8 10#8 = 0x41#8 ∧ packPercent 90#8 90#8 = 0x49#8 ∧
    packPercent 100#8 100#8 = 0x52#8 ∧ packPercent 79#8 79#8 = 0x3F#8 ∧ packPercent 0#8 99#8 = 0x01#8 ∧
    packPercent 25#8 35#8 = 0x13#8 ∧ packPercent 255#8 255#8 = 0xC9#8 := by decide

/-- H14. -/
theorem test_seqinc_wraps : (after (exec .seqinc { host [] with hdr := { (host []).hdr with seq := 0xFFFF#16 } })).map
    (fun s => (s.hdr.seq, s.status.word)) = some (0x0000#16, 0x000#32) := by decide

/-- The worked example of R93. -/
theorem test_emit8 : outOf (exec (.emit8 5#8) (withOutLen (host []) 34)) 34 1 = some ([0x05#8], 35) := by decide

/-- O2. -/
theorem test_emit8_ovf : statusOf (exec (.emit8 0xBB#8) (withOutLen (host []) 256)) = some 0x103#32 := by decide

/-- The worked example of R94: the bytes stay. -/
theorem test_oclr : outOf (exec .oclr { withOutLen (host []) 38 with outBuf := [(1, 0xAA#8)] }) 0 2
    = some ([0x00#8, 0xAA#8], 0) := by decide

/-! ### The host port -/

/-- P-1 to P-4. -/
theorem test_inLen_clamps : (clampLen 0x1FF#32).val = 256 ∧ (clampLen 0x200#32).val = 0 ∧ (clampLen 0x12C#32).val = 256 ∧
    (clampLen 0xFFFFFE05#32).val = 5 := by decide

/-- P-6, P-7 and P-8. -/
theorem test_status_w1c : (Status.writeOneToClear ⟨4#4, true, false⟩ 0x0F#32).word = 0x104#32 ∧
    (Status.writeOneToClear ⟨4#4, true, false⟩ 0x100#32).word = 0x004#32 ∧
    (Status.writeOneToClear ⟨0#4, true, true⟩ 0x200#32).word = 0x100#32 := by decide

/-- P-13 and P-14: the two views of TAG. -/
theorem test_tag_views : (after (step (host [.write 0x012#10 0xABCD1234#32]))).map (fun s => s.hdr.tag)
      = some ⟨0#8, 0#8, 0#8, 0#8, 0x12#8, 0x34#8⟩ ∧
    (after (step (host [.write 0x011#10 0x00112233#32]))).map (fun s => s.hdr.tag)
      = some ⟨0x00#8, 0x11#8, 0x22#8, 0x33#8, 0#8, 0#8⟩ := by decide

/-- P-18: the last byte of the IN window; IN_LEN stays. -/
theorem test_in_window : (after (step (host [.write 0x1FF#10 0x1AB#32]))).map (fun s => (s.inBuf, s.inLen))
    = some ([(255, 0xAB#8)], 0) := by decide

/-- P-19: CMD keeps an illegal word; section 2.5: STATUS is 0x104. -/
theorem test_illegal_word : (after (step (host [.write 0x000#10 0x03000000#32]))).map (fun s => (s.cmd, s.status.word))
    = some (0x03000000#32, 0x104#32) := by decide

/-- R28: a read of PWR after reset returns 17. -/
theorem test_read_pwr : (after (step (host [.read 0x017#10]))).map (fun s => s.replies) = some [17#32] := by decide

/-- A word placed with withFetchWord runs in the very next step after reset. -/
theorem test_first_instruction : (after (step (State.reset.withFetchWord 32 0x23000000))).map
    (fun s => (s.hdr.seq, s.cmd)) = some (1#16, 0x23000000#32) := by decide

/-- R110: RST resets F and keeps the events after it. -/
theorem test_rst : (after (step { host [.rst, .read 0#10] with f := 5#32 })).map (fun s => (s.f, s.pending))
    = some (0#32, [.read 0#10]) := by decide

/-! ### The reader's view of F, and the assembly language -/

/-- The patterns of F1 to F9 as R72 reads them. -/
theorem test_floatView : floatView 0x3F800000#32 = .finite false (2 ^ 23) (-23) ∧
    floatView 0x80000000#32 = .finite true 0 (-149) ∧ floatView 0x7F800000#32 = .infinity false ∧
    floatView 0xFF800000#32 = .infinity true ∧ floatView 0x7FC00000#32 = .nan true ∧
    floatView 0x7F800001#32 = .nan false ∧ floatView 0x00000001#32 = .finite false 1 (-149) ∧
    floatView 0xC0200000#32 = .finite true 10485760 (-22) := by decide

/-- Step 4 of P3, and step 8 of P2, as text. -/
theorem test_text_commands : assembleText "WDEC 38, 0x1C ; status entry" = some [.write 0x000#10 0x11261C00#32] ∧
    assembleText "BATSET 50, 20" = some [.write 0x000#10 0x22003214#32] := by decide

theorem test_text_errors : assembleText "EMIT8 256" = none ∧ assembleText "FDEC" = none ∧
    assembleText "WENC 1 2" = none ∧ assembleText "; a comment" = some [] := by decide

/-- Step 1 of P1, and host transactions of P3 and P-12. -/
theorem test_text_host : assembleText "load IN, 0x41 0x45" = some
      [.write 0x100#10 0x41#32, .write 0x101#10 0x45#32, .write 0x004#10 2#32] ∧
    assembleText "read IN[34]" = some [.read 0x122#10] ∧
    assembleText "write AGE, 0x89ABCDEF" = some [.write 0x022#10 0x89ABCDEF#32] := by decide

/-- The spellings log 9 settles: a comment after a command, a load of no byte, commas to skip in a load. -/
theorem test_text_choices : assembleText "NOP ; x" = some [.write 0x000#10 0#32] ∧
    assembleText "load IN," = some [.write 0x004#10 0#32] ∧
    assembleText "load IN, ,1,," = some [.write 0x100#10 1#32, .write 0x004#10 1#32] := by decide

theorem test_text_pseudo : assembleText "EMIT16 0x1234" = some
      [.write 0x000#10 0x30000012#32, .write 0x000#10 0x30000034#32] ∧
    assembleText "NEWPKT" = some [.write 0x000#10 0x31000000#32, .write 0x000#10 0x20000000#32] := by decide

/-! ### Witnesses: the hypotheses of the statements are met, each clause at a boundary -/

theorem witness_opcodeMap : Instr.oclr.row ∈ opcodeMap ∧ 0x31000000#32 &&& Instr.oclr.row.mask = Instr.oclr.row.pattern := by
  decide

/-- The ends of each range of R65, written to CMD. -/
theorem witness_unassigned : ([0x03000000#32, 0x0F000000#32, 0x12000000#32, 0x1F000000#32, 0x24000000#32, 0x2F000000#32,
    0x32000000#32, 0xFF000000#32].all fun w =>
      decide ((0x03 ≤ w.toNat / 2 ^ 24 ∧ w.toNat / 2 ^ 24 ≤ 0x0F) ∨ (0x12 ≤ w.toNat / 2 ^ 24 ∧ w.toNat / 2 ^ 24 ≤ 0x1F) ∨
        (0x24 ≤ w.toNat / 2 ^ 24 ∧ w.toNat / 2 ^ 24 ≤ 0x2F) ∨ 0x32 ≤ w.toNat / 2 ^ 24) &&
      decide ((host [.write 0x000#10 w]).pending = .write 0x000#10 w :: []) &&
      statusOf (step (host [.write 0x000#10 w])) == some 0x104#32) = true := by decide

theorem witness_reserved : (Instr.fdec 0#8).row ∈ opcodeMap ∧
    (0x01000100#32 : Word).toNat / 2 ^ 24 = (Instr.fdec 0#8).row.pattern.toNat / 2 ^ 24 ∧
    0x01000100#32 &&& (Instr.fdec 0#8).row.mask &&& 0x00FFFFFF#32 ≠ 0#32 ∧
    statusOf (step (host [.write 0x000#10 0x01000100#32])) = some 0x104#32 := by decide

theorem witness_step_command : (host [.write 0x000#10 0x30000005#32]).pending = .write 0x000#10 0x30000005#32 :: [] ∧
    decode 0x30000005#32 = .command (.emit8 5#8) ∧
    outOf (step (host [.write 0x000#10 0x30000005#32])) 0 1 = some ([5#8], 1) := by decide

theorem witness_idle : (host []).pending = [] := rfl

theorem witness_placed_word : decodeTableWord 32 0x31000000 = some .oclr := by decide

theorem witness_host_read : (host [.read 0x3FF#10]).pending = .read 0x3FF#10 :: [] := rfl

/-- CMD changes by a write to CMD, and by reset (R35). -/
theorem witness_cmd_changes : (after (step (host [.write 0x000#10 5#32]))).map (fun s => s.cmd) = some 5#32 ∧
    (host [.write 0x000#10 5#32]).cmd ≠ 5#32 ∧
    (after (step { host [.rst] with cmd := 5#32 })).map (fun s => s.cmd) = some 0#32 := by decide

/-- Writes to STATUS, CTRL, F, IN_LEN and OUT_LEN as the next event. -/
theorem witness_register_writes : ∀ a ∈ [0x001#10, 0x002#10, 0x003#10, 0x004#10, 0x005#10],
    (host [.write a 0xFFFFFFFF#32]).pending = .write a 0xFFFFFFFF#32 :: [] ∧
    (after (step (host [.write a 0xFFFFFFFF#32]))).isSome = true := by decide

/-- A write to each field register and view of R29 and R30 as the next event. -/
theorem witness_field_writes : ∀ r ∈ [Reg.tver, .tag0, .tag1, .ap0, .ap1, .seq, .cver, .pwr, .chan, .rcls, .burst, .sysid,
    .syslen, .ptype, .batid, .batlen, .pct, .days, .age],
    (host [.write (regAddr r) 0xFFFFFFFF#32]).pending = .write (regAddr r) 0xFFFFFFFF#32 :: [] ∧
    (after (step (host [.write (regAddr r) 0xFFFFFFFF#32]))).map (fun s => readReg r s != readReg r (host [])) = some true := by
  decide

/-- The first and last index of each window. -/
theorem witness_windows : ∀ i ∈ [0, 255],
    i < 256 ∧ (after (step (host [.write (BitVec.ofNat 10 (0x100 + i)) 7#32]))).map (fun s => s.inBuf.read i) = some 7#8 ∧
    (after (step (host [.write (BitVec.ofNat 10 (0x200 + i)) 7#32]))).map (fun s => s.outBuf.read i) = some 0#8 := by
  decide

/-- The ends of each unmapped range of R36. -/
theorem witness_unmapped : ∀ a ∈ [0x006#10, 0x00F#10, 0x023#10, 0x0FF#10, 0x300#10, 0x3FF#10],
    ((0x006 ≤ a.toNat ∧ a.toNat ≤ 0x00F) ∨ (0x023 ≤ a.toNat ∧ a.toNat ≤ 0x0FF) ∨ 0x300 ≤ a.toNat) ∧
    (after (step (host [.read a]))).map (fun s => s.replies) = some [0#32] ∧
    after (step (host [.write a 5#32])) = some (host []) := by decide

theorem witness_outLen_changes : (after (step (host [.write 0x000#10 0x30000005#32]))).map (fun s => s.outLen.val) = some 1 ∧
    (after (step { host [.rst] with outLen := 9 })).map (fun s => s.outLen.val) = some 0 ∧
    (after (step { host [.write 0x000#10 0x31000000#32] with outLen := 9 })).map (fun s => s.outLen.val) = some 0 := by
  decide

theorem witness_idempotent : (0x002#10 : PortAddr) ≠ 0x000#10 ∧
    after (hostWrite 0x002#10 1#32 (host [])) = some { host [] with ctrl := ⟨true⟩ } := by decide

/-- FDEC: the last length that fits and the first that does not. -/
theorem witness_fdec : (252#8 : Byte).toNat + 4 ≤ (withIn 0 [] 256).inLen.val ∧
    (withIn 0 [] 255).inLen.val < (252#8 : Byte).toNat + 4 := by decide

/-- HUNPACK: the same. -/
theorem witness_hunpack : (222#8 : Byte).toNat + 34 ≤ (withIn 0 [] 256).inLen.val ∧
    (withIn 0 [] 255).inLen.val < (222#8 : Byte).toNat + 34 := by decide

/-- FENC, HPACK, EMIT8: the last OUT_LEN with room and the first without. -/
theorem witness_room : (withOutLen (host []) 252).outLen.val + 4 ≤ 256 ∧ 256 < (withOutLen (host []) 253).outLen.val + 4 ∧
    (withOutLen (host []) 222).outLen.val + 34 ≤ 256 ∧ 256 < (withOutLen (host []) 223).outLen.val + 34 ∧
    (withOutLen (host []) 255).outLen.val + 1 ≤ 256 ∧ (withOutLen (host []) 256).outLen.val = 256 := by decide

/-- WENC: success that fills OUT exactly (W6), TRUNC, and OVF one character later (W7). -/
theorem witness_wenc : (0 + (128#8 : Byte).toNat ≤ (withIn 0 [] 256).inLen.val ∧
      (withIn 0 [] 256).outLen.val + 2 * (128#8 : Byte).toNat ≤ 256) ∧
    (withIn 0 [] 1).inLen.val < 0 + (2#8 : Byte).toNat ∧
    (0 + (129#8 : Byte).toNat ≤ (withIn 0 [] 256).inLen.val ∧
      256 < (withIn 0 [] 256).outLen.val + 2 * (129#8 : Byte).toNat) := by decide

/-- WDEC: the four clauses, on the states of D6 (success), D5 (TRUNC), D7 (ODDLEN) and D8 (OVF). -/
theorem witness_wdec :
    statusOf (exec (.wdec 0#8 255#8) { withIn 0 [] 256 with ctrl := ⟨true⟩ }) = some 0x200#32 ∧
    statusOf (exec (.wdec 0#8 3#8) (withIn 0 [] 2)) = some 0x101#32 ∧
    statusOf (exec (.wdec 0#8 255#8) (withIn 0 [] 256)) = some 0x102#32 ∧
    statusOf (exec (.wdec 0#8 14#8) (withOutLen (withIn 0 [] 14) 250)) = some 0x103#32 ∧
    (0 + (14#8 : Byte).toNat ≤ (withIn 0 [] 14).inLen.val ∧ (14#8 : Byte).toNat % 2 ≠ 1 ∧
      256 < (withOutLen (withIn 0 [] 14) 250).outLen.val + (14#8 : Byte).toNat / 2) := by decide +kernel

/-- A legal word of each command, and one with the same opcode that its row does not select (R63, R64). -/
theorem witness_encoded : ∀ r ∈ opcodeMap, r.pattern &&& r.mask = r.pattern ∧
    (r.pattern ||| 0x00FFFFFF#32) &&& r.mask ≠ r.pattern ∧ opc (r.pattern ||| 0x00FFFFFF#32) = opc r.pattern := by
  decide

/-- A command that fails, one that succeeds and sets ODDDROP: the premises of the epilogue's clauses. -/
theorem witness_epilogue : statusOf (execute 0x01000000#32 (host [])) = some 0x101#32 ∧
    statusOf (execute 0x11000100#32 { withIn 0 [] 1 with ctrl := ⟨true⟩ }) = some 0x200#32 := by decide

/-- A well-formed state other than reset's, with an IN window write to come. -/
theorem witness_invariant : State.Inv ((withIn 0 [1#8, 2#8] 2).setPending [.write 0x100#10 0#32]) ∧
    (after (step ((withIn 0 [1#8, 2#8] 2).setPending [.write 0x100#10 0#32]))).map (fun s => s.inBuf)
      = some [(1, 2#8)] :=
  And.intro (State.Inv.mk (by decide) (by decide) (by decide)) (by decide)

theorem witness_rst : (host [.rst]).pending = .rst :: [] := rfl

/-- ANYERR set, then cleared by a write of 1 to bit 8 and by reset. -/
theorem witness_anyErr_cleared : ∀ e ∈ [HostEvent.write 0x001#10 0x100#32, .rst],
    (after (step { host [e] with status := ⟨0#4, true, false⟩ })).map (fun s => s.status.anyErr) = some false := by decide

/-- ODDDROP becomes 1 (D4). -/
theorem witness_oddDrop : (after (step { withIn 0 [] 3 with ctrl := ⟨true⟩, pending := [.write 0x000#10 0x11000100#32] })).map
    (fun s => s.status.oddDrop) = some true := by decide

/-- A step other than reset that changes OUT, with an index below the old OUT_LEN and one at the new OUT_LEN. -/
theorem witness_output_kept : (∀ rest, (withOutLen (host [.write 0x000#10 0x30000005#32]) 1).pending ≠ .rst :: rest) ∧
    outOf (step (withOutLen (host [.write 0x000#10 0x30000005#32]) 1)) 0 3 = some ([0#8, 5#8, 0#8], 2) :=
  ⟨(fun rest h => by cases h), by decide⟩

/-- IN and IN_LEN change by the host's writes and by reset. -/
theorem witness_input_changes : (after (step (host [.write 0x100#10 1#32]))).map (fun s => s.inBuf) = some [(0, 1#8)] ∧
    (after (step (host [.write 0x004#10 1#32]))).map (fun s => s.inLen.val) = some 1 ∧
    (after (step { host [.rst] with inLen := 9 })).map (fun s => s.inLen.val) = some 0 := by decide

/-- Two inputs that differ only at IN_LEN and above. -/
theorem witness_valid_input : (∀ a, a < (withIn 0 [1#8] 1).inLen.val →
    Memory.read [(0, 1#8), (1, 9#8)] a = (withIn 0 [1#8] 1).inBuf.read a) ∧
    Memory.read [(0, 1#8), (1, 9#8)] 1 ≠ (withIn 0 [1#8] 1).inBuf.read 1 := by decide

/-- Two inputs that differ only in a first byte of a pair. -/
theorem witness_first_bytes : (∀ j, j < (2#8 : Byte).toNat / 2 →
    Memory.read [(0, 7#8), (1, 9#8)] (0 + 2 * j + 1) = (withIn 0 [0#8, 9#8] 2).inBuf.read (0 + 2 * j + 1)) ∧
    Memory.read [(0, 7#8), (1, 9#8)] 0 ≠ (withIn 0 [0#8, 9#8] 2).inBuf.read 0 := by decide

/-- A run of two events that ends clean, the first one a command word. -/
theorem witness_clean_run : (∀ e ∈ (host [.write 0x000#10 0x30000005#32, .read 0x200#10]).pending, clearsAnyErr e = false) ∧
    (after (core.run 2 (host [.write 0x000#10 0x30000005#32, .read 0x200#10]))).map (fun s => (s.status.anyErr, s.replies))
      = some (false, [5#32]) ∧
    (after (core.run 1 (host [.write 0x000#10 0x30000005#32, .read 0x200#10]))).isSome = true ∧
    (after (core.run 0 (host [.write 0x000#10 0x30000005#32, .read 0x200#10]))).map (fun s => s.pending)
      = some [.write 0x000#10 0x30000005#32, .read 0x200#10] := by decide

/-- The round trips: room and lengths at their bounds, and a copy of the bytes appended. -/
theorem witness_float_round_trip : (0#8 : Byte).toNat + 4 ≤ (withIn 0 [1#8, 2#8, 3#8, 4#8] 4).inLen.val ∧
    (withOutLen (host []) 252).outLen.val ≤ 252 ∧
    (after (exec .fenc { host [] with f := 0x01020304#32 })).map (fun t => t.outBuf.readBytes 0 4)
      = some ((withIn 0 [1#8, 2#8, 3#8, 4#8] 4).inBuf.readBytes 0 4) := by decide

theorem witness_wide_round_trip : (127#8 : Byte).toNat ≤ 127 ∧ (254#8 : Byte).toNat = 2 * (127#8 : Byte).toNat ∧
    (0#8 : Byte).toNat + (127#8 : Byte).toNat ≤ (withIn 0 [] 127).inLen.val ∧
    (withIn 0 [] 127).outLen.val + 2 * (127#8 : Byte).toNat ≤ 256 ∧
    (0#8 : Byte).toNat + (254#8 : Byte).toNat ≤ (withIn 0 [] 256).inLen.val ∧
    (withIn 0 [] 256).outLen.val + (127#8 : Byte).toNat ≤ 256 := by decide +kernel

theorem witness_header_round_trip : (222#8 : Byte).toNat + 34 ≤ (withIn 222 countingBytes 256).inLen.val ∧
    (withOutLen (host []) 222).outLen.val + 34 ≤ 256 ∧
    (after (exec .hpack { host [] with hdr := (withIn 222 countingBytes 256).inHdr 222 })).map
      (fun t => t.outBuf.readBytes 0 34) = some ((withIn 222 countingBytes 256).inBuf.readBytes 222 34) := by decide +kernel

theorem witness_canonical : Memory.wf [(3, 1#8)] = true ∧ Memory.wf (Memory.write [] 3 1#8) = true ∧
    ∀ a, a < 256 → Memory.read [(3, 1#8)] a = Memory.read (Memory.write [] 3 1#8) a := by decide +kernel

theorem witness_asm_ranges : 65535 < 2 ^ 16 ∧ 4294967295 < 2 ^ 32 ∧ 255 < 256 ∧ 256 ≤ 256 := by decide

end Sys2Proof.Tests
end

/-! PROOFS. What a command writes when it succeeds, said once for `exec` and for `execute`, and the frame of those
writes. -/

namespace Sys2Proof.Machine

/-- The commands whose success appends bytes to OUT (R39). -/
def appends : Instr → Bool
  | .fenc | .wenc _ _ | .wdec _ _ | .hpack | .emit8 _ => true
  | .nop | .fdec _ | .hunpack _ | .batset _ _ | .seqinc | .oclr => false

/-- `Wrote s i u`: command `i`, run from `s`, succeeds, and `u` is `s` with the command's writes made, before the
epilogue of R97. -/
inductive Wrote (s : State) : Instr → State → Prop
  | nop : Wrote s .nop s
  | fdec (off : Byte) : Wrote s (.fdec off) (s.setF (s.inBe32 (operand off)))
  | hunpack (off : Byte) : Wrote s (.hunpack off) (s.setHdr (s.inHdr (operand off)))
  | batset (chg tol : Byte) : Wrote s (.batset chg tol) (s.setHdr { s.hdr with pct := packPercent chg tol })
  | seqinc : Wrote s .seqinc (s.setHdr { s.hdr with seq := s.hdr.seq + 1#16 })
  | oclr : Wrote s .oclr (s.setOut s.outBuf 0)
  /-- Bytes are appended, and nothing else is written. -/
  | append {i : Instr} {bs : List Byte} {n : BufLen} (hi : appends i = true) (hn : n.val = s.outLen.val + bs.length) :
      Wrote s i (s.setOut (s.outBuf.writeBytes s.outLen.val bs) n)
  /-- A WDEC of an odd count, which compatible mode accepts, appends and sets ODDDROP (R80, R81). -/
  | oddWdec {off cnt : Byte} {bs : List Byte} {n : BufLen} (hodd : oddCount cnt = true) (hmode : s.ctrl.oddMode = true)
      (hn : n.val = s.outLen.val + bs.length) :
      Wrote s (.wdec off cnt) (s.setOut (s.outBuf.writeBytes s.outLen.val bs) n).markOddDrop

/-- `Ends i s t`: `t` is a state in which command `i`, run from `s`, can end: it raised an error on the state as it was,
or it succeeded with its writes made (R11, R97). -/
inductive Ends (i : Instr) (s : State) : State → Prop
  | raised (e : ResultCode) (he : e ≠ .ok) : Ends i s (s.epilogue e)
  | completed {u : State} (hu : Wrote s i u) : Ends i s (u.epilogue .ok)

section
variable {i : Instr} {s t u : State} {bs : List Byte}

/-- An append that succeeds is a write of the appending command. -/
theorem wrote_of_outAppend (hi : appends i = true) (h : s.outAppend bs = some u) : Wrote s i u := by
  obtain ⟨hlen, hbuf, hrest⟩ := outAppend_some h
  rw [hrest, hbuf]
  exact .append hi hlen

theorem ends_of_raise {e : ResultCode} (h : raise e s = .next t) (he : e ≠ .ok := by decide) : Ends i s t := by
  rw [(raise_next _ _ _).1 h]
  exact .raised e he

theorem ends_of_complete (hu : Wrote s i u) (h : complete u = .next t) : Ends i s t := by
  rw [(complete_next _ _).1 h]
  exact .completed hu

theorem ends_of_appendOrOvf (hi : appends i = true) (h : appendOrOvf bs s = .next t) : Ends i s t := by
  obtain ⟨u, hu, rfl⟩ | ⟨-, rfl⟩ := appendOrOvf_cases h
  · exact .completed (wrote_of_outAppend hi hu)
  · exact .raised .ovf (by decide)

/-- A command behind the check of R49 raises TRUNC, or goes on where the check holds. -/
theorem ends_of_guarded {ok : Bool} {r : Result} (hr : r = .next t → Ends i s t)
    (h : (if ok then r else raise .trunc s) = .next t) : Ends i s t := by
  cases ok with
  | true => exact hr h
  | false => exact ends_of_raise h

theorem ends_of_execWdec {off cnt : Byte} (h : execWdec off cnt s = .next t) : Ends (.wdec off cnt) s t := by
  unfold execWdec at h
  split at h
  · exact ends_of_raise h
  split at h
  · exact ends_of_raise h
  next hstrict =>
  split at h
  · exact ends_of_raise h
  next u hu =>
  refine ends_of_complete ?_ h
  split
  next hodd =>
    obtain ⟨hlen, hbuf, hrest⟩ := outAppend_some hu
    rw [hrest, hbuf]
    exact .oddWdec hodd (by simpa [hodd] using hstrict) hlen
  next => exact wrote_of_outAppend rfl hu

/-- All that a command can do. -/
theorem exec_ends (h : exec i s = .next t) : Ends i s t := by
  cases i with
  | nop => exact ends_of_complete .nop h
  | fdec off => exact ends_of_guarded (ends_of_complete (.fdec off)) h
  | fenc => exact ends_of_appendOrOvf rfl h
  | wenc off cnt => exact ends_of_guarded (ends_of_appendOrOvf rfl) h
  | wdec off cnt => exact ends_of_execWdec h
  | hpack => exact ends_of_appendOrOvf rfl h
  | hunpack off => exact ends_of_guarded (ends_of_complete (.hunpack off)) h
  | batset chg tol => exact ends_of_complete (.batset chg tol) h
  | seqinc => exact ends_of_complete .seqinc h
  | emit8 imm => exact ends_of_appendOrOvf rfl h
  | oclr => exact ends_of_complete .oclr h

end

/-- All that the execution of a word can do: with the word in CMD it raises an error, or it decodes to a command that
succeeds. -/
theorem execute_raises_or_wrote {w : Word} {s t : State} (h : execute w s = .next t) :
    (∃ e, e ≠ .ok ∧ t = (s.setCmd w).epilogue e) ∨
      ∃ i u, decode w = .command i ∧ Wrote (s.setCmd w) i u ∧ t = u.epilogue .ok := by
  obtain ⟨i, hi, hexec⟩ | ⟨-, -, ht⟩ := execute_cases h
  · cases exec_ends hexec with
    | raised e he => exact .inl ⟨e, he, rfl⟩
    | completed hu => exact .inr ⟨i, _, hi, hu, rfl⟩
  · exact .inl ⟨.illegal, by decide, ht⟩

/-! ### The frame of a command's writes (R39) -/

section
variable {i : Instr} {s u : State}

theorem Wrote.cmd_eq (h : Wrote s i u) : u.cmd = s.cmd := by cases h <;> rfl
theorem Wrote.ctrl_eq (h : Wrote s i u) : u.ctrl = s.ctrl := by cases h <;> rfl
theorem Wrote.inBuf_eq (h : Wrote s i u) : u.inBuf = s.inBuf := by cases h <;> rfl
theorem Wrote.inLen_eq (h : Wrote s i u) : u.inLen = s.inLen := by cases h <;> rfl
theorem Wrote.pending_eq (h : Wrote s i u) : u.pending = s.pending := by cases h <;> rfl
theorem Wrote.replies_eq (h : Wrote s i u) : u.replies = s.replies := by cases h <;> rfl
theorem Wrote.anyErr_eq (h : Wrote s i u) : u.status.anyErr = s.status.anyErr := by cases h <;> rfl

/-- F is written by FDEC only. -/
theorem Wrote.f_eq (h : Wrote s i u) (hi : ∀ off, i ≠ .fdec off) : u.f = s.f := by
  cases h with
  | fdec off => exact absurd rfl (hi off)
  | _ => rfl

/-- A command other than HUNPACK writes at most SEQ and PCT of HDR. -/
theorem Wrote.hdr_eq (h : Wrote s i u) (hi : ∀ off, i ≠ .hunpack off) :
    u.hdr = { s.hdr with seq := u.hdr.seq, pct := u.hdr.pct } := by
  cases h with
  | hunpack off => exact absurd rfl (hi off)
  | _ => rfl

/-- PCT is written by HUNPACK and BATSET only. -/
theorem Wrote.pct_eq (h : Wrote s i u) (hi : ∀ off, i ≠ .hunpack off) (hi' : ∀ chg tol, i ≠ .batset chg tol) :
    u.hdr.pct = s.hdr.pct := by
  cases h with
  | hunpack off => exact absurd rfl (hi off)
  | batset chg tol => exact absurd rfl (hi' chg tol)
  | _ => rfl

/-- SEQ is written by HUNPACK and SEQINC only. -/
theorem Wrote.seq_eq (h : Wrote s i u) (hi : ∀ off, i ≠ .hunpack off) (hi' : i ≠ .seqinc) :
    u.hdr.seq = s.hdr.seq := by
  cases h with
  | hunpack off => exact absurd rfl (hi off)
  | seqinc => exact absurd rfl hi'
  | _ => rfl

/-- OUT is written by the appending commands only. -/
theorem Wrote.outBuf_eq (h : Wrote s i u) (hi : appends i = false) : u.outBuf = s.outBuf := by
  cases h with
  | append hi' => exact absurd hi' (by simp [hi])
  | oddWdec => cases hi
  | _ => rfl

/-- OUT_LEN is written by the appending commands and OCLR only. -/
theorem Wrote.outLen_eq (h : Wrote s i u) (hi : appends i = false) (hi' : i ≠ .oclr) : u.outLen = s.outLen := by
  cases h with
  | append hi' => exact absurd hi' (by simp [hi])
  | oddWdec => cases hi
  | oclr => exact absurd rfl hi'
  | _ => rfl

/-- No command changes a byte of OUT below the OUT_LEN it finds or at or above the one it leaves (R24, R50, R94). -/
theorem Wrote.outBuf_read_eq (h : Wrote s i u) {a : Nat} (ha : a < s.outLen.val ∨ u.outLen.val ≤ a) :
    u.outBuf.read a = s.outBuf.read a := by
  cases h with
  | append _ hn | oddWdec _ _ hn => exact Memory.read_writeBytes_outside _ _ _ _ (by simpa [hn] using ha)
  | _ => rfl

/-- ODDDROP is set by a WDEC of an odd count in compatible mode only (R81). -/
theorem Wrote.oddDrop_cases (h : Wrote s i u) :
    u.status.oddDrop = s.status.oddDrop ∨
      ∃ off cnt, i = .wdec off cnt ∧ oddCount cnt = true ∧ s.ctrl.oddMode = true := by
  cases h with
  | oddWdec hodd hmode => exact .inr ⟨_, _, rfl, hodd, hmode⟩
  | _ => exact .inl rfl

end

/-! ### The frame of an execution -/

section
variable {w : Word} {s t : State}

theorem execute_cmd (h : execute w s = .next t) : t.cmd = w := by
  obtain ⟨e, -, rfl⟩ | ⟨i, u, -, hu, rfl⟩ := execute_raises_or_wrote h
  · rfl
  · exact hu.cmd_eq

theorem execute_inBuf (h : execute w s = .next t) : t.inBuf = s.inBuf := by
  obtain ⟨e, -, rfl⟩ | ⟨i, u, -, hu, rfl⟩ := execute_raises_or_wrote h
  · rfl
  · exact hu.inBuf_eq

theorem execute_inLen (h : execute w s = .next t) : t.inLen = s.inLen := by
  obtain ⟨e, -, rfl⟩ | ⟨i, u, -, hu, rfl⟩ := execute_raises_or_wrote h
  · rfl
  · exact hu.inLen_eq

theorem execute_outBuf_read (h : execute w s = .next t) {a : Nat} (ha : a < s.outLen.val ∨ t.outLen.val ≤ a) :
    t.outBuf.read a = s.outBuf.read a := by
  obtain ⟨e, -, rfl⟩ | ⟨i, u, -, hu, rfl⟩ := execute_raises_or_wrote h
  · rfl
  · exact hu.outBuf_read_eq ha

/-- An execution that changes OUT_LEN runs an appending command or OCLR. -/
theorem execute_outLen_ne (h : execute w s = .next t) (hne : t.outLen ≠ s.outLen) :
    ∃ i, decode w = .command i ∧ (appends i = true ∨ i = .oclr) := by
  obtain ⟨e, -, rfl⟩ | ⟨i, u, hi, hu, rfl⟩ := execute_raises_or_wrote h
  · exact absurd rfl hne
  · refine ⟨i, hi, ?_⟩
    by_contra! hno
    exact hne (hu.outLen_eq (by simpa using hno.1) hno.2)

/-- No execution clears ANYERR (R97). -/
theorem execute_anyErr (h : execute w s = .next t) (hs : s.status.anyErr = true) : t.status.anyErr = true := by
  obtain ⟨e, -, rfl⟩ | ⟨i, u, -, hu, rfl⟩ := execute_raises_or_wrote h
  · simp [hs]
  · simp [hu.anyErr_eq, hs]

/-- An execution that sets ODDDROP is a successful WDEC of an odd count in compatible mode (R81). -/
theorem execute_sets_oddDrop (h : execute w s = .next t) (hs : s.status.oddDrop = false)
    (ht : t.status.oddDrop = true) :
    ∃ off cnt, decode w = .command (.wdec off cnt) ∧ oddCount cnt = true ∧ s.ctrl.oddMode = true ∧
      t.status.err = 0#4 := by
  obtain ⟨e, -, rfl⟩ | ⟨i, u, hi, hu, rfl⟩ := execute_raises_or_wrote h
  · simp [hs] at ht
  · obtain hkeep | ⟨off, cnt, rfl, hodd, hmode⟩ := hu.oddDrop_cases
    · simp [hkeep, hs] at ht
    · exact ⟨off, cnt, hi, hodd, hmode, rfl⟩

end

/-! ### The packed percent byte -/

/-- `PCT` after BATSET, in arithmetic (R88). -/
theorem packPercent_toNat (chg tol : Byte) :
    (packPercent chg tol).toNat = 8 * (chg.toNat / 10) + tol.toNat / 10 % 8 := by
  have hand : tol.toNat / 10 &&& 7 = tol.toNat / 10 % 8 := Nat.and_two_pow_sub_one_eq_mod _ 3
  have hlt : tol.toNat / 10 % 8 < 2 ^ 3 := Nat.mod_lt _ (by decide)
  have := chg.isLt
  rw [packPercent, operand, operand, hand, ← Nat.shiftLeft_add_eq_or_of_lt hlt, Nat.shiftLeft_eq, BitVec.toNat_ofNat]
  omega

/-- `CHGQ = PCT[7:3]` in arithmetic (R21). -/
theorem Hdr.chgq_toNat (h : Hdr) : h.chgq.toNat = h.pct.toNat / 8 := by
  have := h.pct.isLt
  rw [Hdr.chgq, BitVec.extractLsb'_toNat, Nat.shiftRight_eq_div_pow]
  omega

/-- `TOLQ = PCT[2:0]` in arithmetic (R21). -/
theorem Hdr.tolq_toNat (h : Hdr) : h.tolq.toNat = h.pct.toNat % 8 := by
  rw [Hdr.tolq, BitVec.extractLsb'_toNat, Nat.shiftRight_zero]

/-- BATSET always succeeds and leaves the packed byte in PCT. -/
theorem exec_batset_pct {chg tol : Byte} {s t : State} (h : exec (.batset chg tol) s = .next t) :
    t.hdr.pct = packPercent chg tol := by
  have ht : t = (s.setHdr { s.hdr with pct := packPercent chg tol }).epilogue .ok := (complete_next _ _).1 h
  rw [ht]
  rfl

end Sys2Proof.Machine

/-! PROOFS. The host port's reads and writes by register, what a store leaves unchanged, and the addresses that name no
register. -/

namespace Sys2Proof.Machine

/-! ### Registers by their addresses -/

@[simp] theorem hostRead_regAddr (r : Reg) (s : State) : hostRead (regAddr r) s = readReg r s := by
  simp [hostRead]

/-- A read of a register that holds `x`, zero-extended, gives `x` (R28, R30). -/
theorem hostRead_toNat_of_zext {n : Nat} (r : Reg) (x : BitVec n) {s : State} (h : readReg r s = x.setWidth 32)
    (hn : n ≤ 32 := by decide) : (hostRead (regAddr r) s).toNat = x.toNat := by
  rw [hostRead_regAddr, h, BitVec.toNat_setWidth_of_le hn]

/-- A read of a register that holds a buffer length gives the length (R31, R32). -/
theorem hostRead_toNat_of_bufLen (r : Reg) (n : BufLen) {s : State} (h : readReg r s = BitVec.ofNat 32 n.val) :
    (hostRead (regAddr r) s).toNat = n.val := by
  rw [hostRead_regAddr, h, BitVec.toNat_ofNat]
  omega

/-- A step on a write to a register other than CMD stores by the register's rule. -/
theorem step_writeReg (r : Reg) {s : State} {a : PortAddr} {v : Word} {rest : List HostEvent}
    (h : s.pending = .write a v :: rest) (ha : a = regAddr r) (hr : r ≠ .cmd := by decide) :
    step s = .next (writeReg r v (s.setPending rest)) := by
  subst ha
  have hne : regAddr r ≠ 0x000#10 := fun h0 =>
    hr (by simpa using (portTarget_regAddr r).symm.trans (portTarget_eq_cmd.2 h0))
  rw [step_of_cons h, transact, hostWrite_other hne, portTarget_regAddr, storeAt]

/-- A step on a write to CMD executes the word. -/
theorem step_writeCmd {s : State} {w : Word} {rest : List HostEvent} (h : s.pending = .write 0x000#10 w :: rest) :
    step s = execute w (s.setPending rest) := by
  rw [step_of_cons h, transact, hostWrite_cmd]

theorem execute_of_command {w : Word} {i : Instr} (h : decode w = .command i) (s : State) :
    execute w s = exec i (s.setCmd w) := by
  simp [execute, h]

/-! ### The address map read backwards -/

theorem eq_regAddr_of_portTarget {a : PortAddr} {r : Reg} (h : portTarget a = .reg r) : a = regAddr r := by
  obtain ⟨r', hr, ha⟩ | ⟨i, -, hr, -⟩ | ⟨i, -, hr, -⟩ | ⟨hr, -⟩ := portTarget_cases a <;> rw [hr] at h <;> cases h
  exact ha

theorem toNat_of_portTarget_inByte {a : PortAddr} {i : Nat} (h : portTarget a = .inByte i) :
    0x100 ≤ a.toNat ∧ a.toNat ≤ 0x1FF := by
  obtain ⟨r, hr, -⟩ | ⟨j, hj, hr, ha⟩ | ⟨j, -, hr, -⟩ | ⟨hr, -⟩ := portTarget_cases a <;> rw [hr] at h <;> cases h
  omega

/-- The registers stand at 0x000 to 0x005 and 0x010 to 0x022 (R28). -/
theorem regAddr_range (r : Reg) :
    (regAddr r).toNat ≤ 0x005 ∨ 0x010 ≤ (regAddr r).toNat ∧ (regAddr r).toNat ≤ 0x022 := by
  cases r <;> decide

/-- The unmapped addresses of R36. -/
theorem portTarget_unmapped {a : PortAddr}
    (h : (0x006 ≤ a.toNat ∧ a.toNat ≤ 0x00F) ∨ (0x023 ≤ a.toNat ∧ a.toNat ≤ 0x0FF) ∨ 0x300 ≤ a.toNat) :
    portTarget a = .unmapped := by
  obtain ⟨r, -, rfl⟩ | ⟨i, _, -, ha⟩ | ⟨i, _, -, ha⟩ | ⟨hr, -⟩ := portTarget_cases a
  · have := regAddr_range r
    omega
  · omega
  · omega
  · exact hr

/-! ### What a store leaves unchanged -/

section
variable (p : PortTarget) (v : Word) (s : State)

@[simp] theorem storeAt_outBuf : (storeAt p v s).outBuf = s.outBuf := by
  cases p with
  | reg r => cases r <;> rfl
  | _ => rfl

@[simp] theorem storeAt_outLen : (storeAt p v s).outLen = s.outLen := by
  cases p with
  | reg r => cases r <;> rfl
  | _ => rfl

/-- No store but the one to CMD writes CMD. -/
theorem storeAt_cmd (h : p ≠ .reg .cmd) : (storeAt p v s).cmd = s.cmd := by
  cases p with
  | reg r =>
    cases r with
    | cmd => exact absurd rfl h
    | _ => rfl
  | _ => rfl

/-- IN is written through its window only. -/
theorem storeAt_inBuf (h : ∀ i, p ≠ .inByte i) : (storeAt p v s).inBuf = s.inBuf := by
  cases p with
  | reg r => cases r <;> rfl
  | inByte i => exact absurd rfl (h i)
  | _ => rfl

/-- IN_LEN is written through its register only. -/
theorem storeAt_inLen (h : p ≠ .reg .inLen) : (storeAt p v s).inLen = s.inLen := by
  cases p with
  | reg r =>
    cases r with
    | inLen => exact absurd rfl h
    | _ => rfl
  | _ => rfl

/-- A store leaves STATUS alone or is the write-1-to-clear of R33. -/
theorem storeAt_status :
    (storeAt p v s).status = s.status ∨
      p = .reg .status ∧ (storeAt p v s).status = s.status.writeOneToClear v := by
  cases p with
  | reg r =>
    cases r with
    | status => exact .inr ⟨rfl, rfl⟩
    | _ => exact .inl rfl
  | _ => exact .inl rfl

end

/-! ### STATUS and IN_LEN as numbers -/

/-- A concatenation as a number, for every pair of widths (R8). -/
theorem toNat_append_eq_add {m n : Nat} (x : BitVec m) (y : BitVec n) :
    (x ++ y).toNat = x.toNat * 2 ^ n + y.toNat := by
  rw [BitVec.toNat_append, ← Nat.shiftLeft_add_eq_or_of_lt y.isLt, Nat.shiftLeft_eq]

/-- The read layout of STATUS (R33). -/
theorem Status.word_toNat (st : Status) :
    st.word.toNat = st.err.toNat + 256 * st.anyErr.toNat + 512 * st.oddDrop.toNat := by
  rw [Status.word, BitVec.toNat_setWidth_of_le (by decide)]
  simp only [toNat_append_eq_add, BitVec.toNat_ofBool, BitVec.toNat_ofNat]
  omega

theorem clampLen_val (v : Word) : (clampLen v).val = min (v.toNat % 512) 256 := by
  simp [clampLen]

/-! ### The views of a hardware address (R29) -/

theorem HwAddr.view0_toNat (x : HwAddr) :
    x.view0.toNat = x.b0.toNat * 2 ^ 24 + x.b1.toNat * 2 ^ 16 + x.b2.toNat * 2 ^ 8 + x.b3.toNat := by
  rw [HwAddr.view0, be32_toNat]
  omega

theorem HwAddr.view1_toNat (x : HwAddr) : x.view1.toNat = x.b4.toNat * 2 ^ 8 + x.b5.toNat := by
  rw [HwAddr.view1, BitVec.toNat_setWidth_of_le (by decide), be16_toNat]
  omega

end Sys2Proof.Machine

/-! PROOFS. The statements of 10_state.md. -/

namespace Sys2Proof.Machine

/-! ### Who changes what, over every step -/

/-- Settles O12: `execute_cmd` for the write to CMD, and no other event but reset writes CMD. -/
theorem cmdHoldsTheLastWord : Obligations.CmdHoldsTheLastWord := by
  refine ⟨fun s t w rest hp h => execute_cmd ((step_writeCmd hp).symm.trans h), fun s t h hne => ?_,
    hostRead_regAddr .cmd, rfl⟩
  obtain ⟨-, rfl⟩ | ⟨a, rest, -, rfl⟩ | ⟨w, rest, hp, -⟩ | ⟨a, v, rest, ha, -, rfl⟩ | ⟨rest, hp, -⟩ := step_cases h
  case inl => exact absurd rfl hne
  case inr.inl => exact absurd rfl hne
  case inr.inr.inl => exact .inl ⟨w, rest, hp⟩
  case inr.inr.inr.inl => exact absurd (storeAt_cmd _ v _ (mt portTarget_eq_cmd.1 ha)) hne
  case inr.inr.inr.inr => exact .inr ⟨rest, hp⟩

/-- The commands that may change OUT_LEN, listed (R39). -/
theorem listed_of_appends_or_oclr {i : Instr} (h : appends i = true ∨ i = .oclr) :
    i = .fenc ∨ (∃ off cnt, i = .wenc off cnt) ∨ (∃ off cnt, i = .wdec off cnt) ∨ i = .hpack ∨
      (∃ imm, i = .emit8 imm) ∨ i = .oclr := by
  cases i <;> simp [appends] at h ⊢

/-- Settles O20: among the events only a command word and reset can change OUT_LEN, and of the commands only those
that append and OCLR. -/
theorem outLenIsReadOnlyToTheHost : Obligations.OutLenIsReadOnlyToTheHost := by
  refine ⟨fun s => hostRead_toNat_of_bufLen .outLen s.outLen rfl, fun s v rest hp => step_writeReg .outLen hp rfl,
    fun s t h hne => ?_⟩
  obtain ⟨-, rfl⟩ | ⟨a, rest, -, rfl⟩ | ⟨w, rest, hp, hex⟩ | ⟨a, v, rest, -, -, rfl⟩ | ⟨rest, hp, -⟩ := step_cases h
  case inl => exact absurd rfl hne
  case inr.inl => exact absurd rfl hne
  case inr.inr.inl =>
    obtain ⟨i, hi, hlisted⟩ := execute_outLen_ne hex hne
    exact .inl ⟨w, rest, i, hp, hi, listed_of_appends_or_oclr hlisted⟩
  case inr.inr.inr.inl => exact absurd (storeAt_outLen _ v _) hne
  case inr.inr.inr.inr => exact .inr ⟨rest, hp⟩

/-- Settles O21: the address decode answers `unmapped`, which reads 0 and stores nothing. -/
theorem unmappedAddressesReadZeroAndIgnoreWrites : Obligations.UnmappedAddressesReadZeroAndIgnoreWrites := by
  intro s a hrange
  have htarget := portTarget_unmapped hrange
  have hne : a ≠ 0x000#10 := by
    rintro rfl
    simp at hrange
  constructor
  · intro rest hp
    rw [step_of_cons hp, transact, hostRead, htarget]
    rfl
  · intro v rest hp
    rw [step_of_cons hp, transact, hostWrite_other hne, htarget]
    rfl

/-- Settles O31: the packed byte as a number, split at bit 3. -/
theorem percentSubfieldsAfterBatset : Obligations.PercentSubfieldsAfterBatset := by
  intro chg tol s t h
  have hpct : t.hdr.pct.toNat = 8 * (chg.toNat / 10) + tol.toNat / 10 % 8 := by
    rw [exec_batset_pct h, packPercent_toNat]
  have hchg : t.hdr.chgq.toNat = chg.toNat / 10 := by
    rw [Hdr.chgq_toNat]
    omega
  have htol : t.hdr.tolq.toNat = tol.toNat / 10 % 8 := by
    rw [Hdr.tolq_toNat]
    omega
  refine ⟨hchg, htol, ?_, ?_⟩
  · rw [Hdr.chargePercent, hchg]
    omega
  · rw [Hdr.tolerancePercent, htol, Nat.mul_comm]

/-- Settles O37: a command that fails changes only STATUS; for one that succeeds each part is a frame lemma of
`Wrote`. -/
theorem commandsWriteOnlyTheirState : Obligations.CommandsWriteOnlyTheirState := by
  intro i s t h
  cases exec_ends h with
  | raised e he => simp
  | completed hu =>
    refine ⟨hu.cmd_eq, hu.ctrl_eq, hu.inBuf_eq, hu.inLen_eq, hu.pending_eq, hu.replies_eq, hu.f_eq, hu.hdr_eq,
      hu.pct_eq, hu.seq_eq, ?_, ?_⟩
    · rintro (rfl | rfl | ⟨off, rfl⟩ | ⟨off, rfl⟩ | ⟨chg, tol, rfl⟩) <;>
        exact ⟨hu.outBuf_eq rfl, hu.outLen_eq rfl nofun⟩
    · rintro rfl
      exact hu.outBuf_eq rfl

/-- Settles O43: no command clears ANYERR, and of the stores only the write-1-to-clear with bit 8 set does. -/
theorem anyErrIsSticky : Obligations.AnyErrIsSticky := by
  intro s t h hs ht
  obtain ⟨-, rfl⟩ | ⟨a, rest, -, rfl⟩ | ⟨w, rest, -, hex⟩ | ⟨a, v, rest, -, hp, rfl⟩ | ⟨rest, hp, -⟩ := step_cases h
  case inl => simp [hs] at ht
  case inr.inl => simp [hs] at ht
  case inr.inr.inl => simp [execute_anyErr hex hs] at ht
  case inr.inr.inr.inl =>
    obtain hkeep | ⟨htarget, hclear⟩ := storeAt_status (portTarget a) v (s.setPending rest)
    · simp [hkeep, hs] at ht
    · have ha : a = 0x001#10 := eq_regAddr_of_portTarget htarget
      have hv : v.getLsbD 8 = true := by simpa [hclear, hs] using ht
      exact ⟨_, rest, hp, by simp [clearsAnyErr, ha, hv]⟩
  case inr.inr.inr.inr => exact ⟨.rst, rest, hp, rfl⟩

/-- Settles O44: a store or reset can only clear ODDDROP, so the step executes a word, and that is the case of
`execute_sets_oddDrop`. -/
theorem oddDropSetOnlyByCompatibleOddWdec : Obligations.OddDropSetOnlyByCompatibleOddWdec := by
  intro s t h hs ht
  obtain ⟨-, rfl⟩ | ⟨a, rest, -, rfl⟩ | ⟨w, rest, hp, hex⟩ | ⟨a, v, rest, -, -, rfl⟩ | ⟨rest, -, rfl⟩ := step_cases h
  case inl => simp [hs] at ht
  case inr.inl => simp [hs] at ht
  case inr.inr.inl =>
    obtain ⟨off, cnt, hdec, hodd, hmode, herr⟩ := execute_sets_oddDrop hex hs ht
    exact ⟨w, rest, off, cnt, hp, hdec, by simpa [oddCount, operand] using hodd, hmode, herr⟩
  case inr.inr.inr.inl =>
    obtain hkeep | ⟨-, hclear⟩ := storeAt_status (portTarget a) v (s.setPending rest)
    · simp [hkeep, hs] at ht
    · simp [hclear, hs] at ht
  case inr.inr.inr.inr => cases ht

/-- Settles O45: only an execution writes OUT, and it keeps these bytes by `execute_outBuf_read`. -/
theorem producedOutputIsKept : Obligations.ProducedOutputIsKept := by
  intro s t h hrst b hb
  obtain ⟨-, rfl⟩ | ⟨a, rest, -, rfl⟩ | ⟨w, rest, -, hex⟩ | ⟨a, v, rest, -, -, rfl⟩ | ⟨rest, hp, -⟩ := step_cases h
  case inl => rfl
  case inr.inl => rfl
  case inr.inr.inl => exact execute_outBuf_read hex hb
  case inr.inr.inr.inl => rw [storeAt_outBuf, State.setPending_outBuf]
  case inr.inr.inr.inr => exact absurd hp (hrst rest)

/-- Settles O46: no command writes IN or IN_LEN, and a store that does names the IN window or IN_LEN. -/
theorem onlyTheHostChangesInput : Obligations.OnlyTheHostChangesInput := by
  intro s t h hne
  obtain ⟨-, rfl⟩ | ⟨a, rest, -, rfl⟩ | ⟨w, rest, -, hex⟩ | ⟨a, v, rest, -, hp, rfl⟩ | ⟨rest, hp, -⟩ := step_cases h
  case inl => simp at hne
  case inr.inl => simp at hne
  case inr.inr.inl => simp [execute_inBuf hex, execute_inLen hex] at hne
  case inr.inr.inr.inl =>
    refine .inl ⟨a, v, rest, hp, ?_⟩
    by_contra! hno
    have hbuf : ∀ i, portTarget a ≠ .inByte i := fun i hi => by
      have := toNat_of_portTarget_inByte hi
      omega
    have hlen : portTarget a ≠ .reg .inLen := fun hr => hno.1 (eq_regAddr_of_portTarget hr)
    simp [storeAt_inBuf _ v _ hbuf, storeAt_inLen _ v _ hlen] at hne
  case inr.inr.inr.inr => exact .inr ⟨rest, hp⟩

/-! ### Single steps -/

/-- Settles O7: a write to CMD executes the word, which runs the command it decodes to. -/
theorem stepRunsTheDecodedCommand : Obligations.StepRunsTheDecodedCommand :=
  fun _ _ _ _ hp hdec => (step_writeCmd hp).trans (execute_of_command hdec _)

/-- Settles O8. -/
theorem idleStepChangesNothing : Obligations.IdleStepChangesNothing := fun _ => step_of_nil

/-- The decoder reads a 32-bit table row as the command word of its bits. -/
theorem decode_of_decodeTableWord {w : Nat} {i : Instr} (h : decodeTableWord 32 w = some i) :
    decode (BitVec.ofNat 32 (w % 2 ^ 32)) = .command i := by
  rw [decodeTableWord, if_pos (le_refl 32)] at h
  cases hd : decode (BitVec.ofNat 32 (w % 2 ^ 32)) with
  | command j =>
    rw [hd] at h
    cases h
    rfl
  | illegal why =>
    rw [hd] at h
    cases h

/-- Settles O9: the placed word is the data of the next write to CMD, so this is O7's statement at that state. -/
theorem placedWordRunsNext : Obligations.PlacedWordRunsNext :=
  fun s w i h => stepRunsTheDecodedCommand (s.withFetchWord 32 w) _ s.pending i rfl (decode_of_decodeTableWord h)

/-! ### The registers -/

/-- Settles O13: the write-1-to-clear of R33 and STATUS's read layout. -/
theorem statusWriteOneToClearAndRead : Obligations.StatusWriteOneToClearAndRead := by
  refine ⟨fun s v rest hp => step_writeReg .status hp rfl, fun s => ?_⟩
  exact (congrArg BitVec.toNat (hostRead_regAddr .status s)).trans s.status.word_toNat

/-- Settles O14. -/
theorem ctrlAndFloatRegisterPort : Obligations.CtrlAndFloatRegisterPort := by
  refine ⟨fun s v rest hp => step_writeReg .ctrl hp rfl, fun s v rest hp => step_writeReg .f hp rfl, fun s => ⟨?_, ?_⟩⟩
  · exact (hostRead_toNat_of_zext .ctrl (BitVec.ofBool s.ctrl.oddMode) rfl).trans (BitVec.toNat_ofBool _)
  · exact hostRead_regAddr .f s

/-- Settles O15. -/
theorem inLenWriteClamps : Obligations.InLenWriteClamps :=
  ⟨fun _ v _ hp => ⟨clampLen v, clampLen_val v, step_writeReg .inLen hp rfl⟩,
    fun s => hostRead_toNat_of_bufLen .inLen s.inLen rfl⟩

/-- Settles O16: one register after the other, in the order of R28's table. -/
theorem fieldRegistersStoreTheLowBits : Obligations.FieldRegistersStoreTheLowBits := by
  constructor
  · intro s v rest a hp
    exact ⟨step_writeReg .tver hp, step_writeReg .seq hp, step_writeReg .cver hp, step_writeReg .pwr hp,
      step_writeReg .chan hp, step_writeReg .rcls hp, step_writeReg .burst hp, step_writeReg .sysid hp,
      step_writeReg .syslen hp, step_writeReg .ptype hp, step_writeReg .batid hp, step_writeReg .batlen hp,
      step_writeReg .pct hp, step_writeReg .days hp, step_writeReg .age hp⟩
  · intro s
    exact ⟨hostRead_toNat_of_zext .tver s.hdr.tver rfl, hostRead_toNat_of_zext .seq s.hdr.seq rfl,
      hostRead_toNat_of_zext .cver s.hdr.cver rfl, hostRead_toNat_of_zext .pwr s.hdr.pwr rfl,
      hostRead_toNat_of_zext .chan s.hdr.chan rfl, hostRead_toNat_of_zext .rcls s.hdr.rcls rfl,
      hostRead_toNat_of_zext .burst s.hdr.burst rfl, hostRead_toNat_of_zext .sysid s.hdr.sysid rfl,
      hostRead_toNat_of_zext .syslen s.hdr.syslen rfl, hostRead_toNat_of_zext .ptype s.hdr.ptype rfl,
      hostRead_toNat_of_zext .batid s.hdr.batid rfl, hostRead_toNat_of_zext .batlen s.hdr.batlen rfl,
      hostRead_toNat_of_zext .pct s.hdr.pct rfl, hostRead_toNat_of_zext .days s.hdr.days rfl,
      hostRead_regAddr .age s⟩

/-- Settles O17: a read of a view is its big-endian number, a write sets the bytes of the view. -/
theorem hardwareAddressViews : Obligations.HardwareAddressViews := by
  constructor
  · intro s
    exact ⟨(congrArg BitVec.toNat (hostRead_regAddr .tag0 s)).trans s.hdr.tag.view0_toNat,
      (congrArg BitVec.toNat (hostRead_regAddr .tag1 s)).trans s.hdr.tag.view1_toNat,
      (congrArg BitVec.toNat (hostRead_regAddr .ap0 s)).trans s.hdr.ap.view0_toNat,
      (congrArg BitVec.toNat (hostRead_regAddr .ap1 s)).trans s.hdr.ap.view1_toNat⟩
  · intro s v rest a hp
    exact ⟨step_writeReg .tag0 hp, step_writeReg .tag1 hp, step_writeReg .ap0 hp, step_writeReg .ap1 hp⟩

end Sys2Proof.Machine

/-! PROOFS. Buffers as data: what a write at an index leaves of an earlier write there, and that the canonical form is
determined by the reads. -/

namespace Sys2Proof.Machine

section
variable {m m' : Memory} {a : Nat}

theorem Memory.erase_of_forall_ne (h : ∀ c ∈ m, c.1 ≠ a) : Memory.erase m a = m := by
  induction m with
  | nil => rfl
  | cons c m ih =>
    have hk : c.1 ≠ a := h c List.mem_cons_self
    simp [Memory.erase, hk, ih fun d hd => h d (List.mem_cons_of_mem _ hd)]

/-- An erasure takes away what an insertion at its index put in, whatever the order of the entries. -/
theorem Memory.erase_insert (v : Byte) : Memory.erase (Memory.insert m a v) a = Memory.erase m a := by
  induction m with
  | nil => simp [Memory.insert, Memory.erase]
  | cons c m ih => by_cases hlt : a < c.1 <;> simp [Memory.insert, Memory.erase, hlt, ih]

theorem Memory.erase_erase : Memory.erase (Memory.erase m a) a = Memory.erase m a :=
  Memory.erase_of_forall_ne fun _ hc => (Memory.mem_erase hc).1

/-- A write changes nothing but the entry at its index. -/
theorem Memory.erase_write (v : Byte) : Memory.erase (Memory.write m a v) a = Memory.erase m a := by
  unfold Memory.write
  split
  · exact Memory.erase_erase
  · rw [Memory.erase_insert, Memory.erase_erase]

/-- A write does not depend on the entries at its index. -/
theorem Memory.write_congr (h : Memory.erase m a = Memory.erase m' a) (v : Byte) :
    Memory.write m a v = Memory.write m' a v := by
  rw [Memory.write, Memory.write, h]

/-- Of two writes at one index the second one counts, as data and not only for reads. -/
theorem Memory.write_write (v v' : Byte) : Memory.write (Memory.write m a v) a v' = Memory.write m a v' :=
  Memory.write_congr (Memory.erase_write v) v'

/-- Below its least index a canonical list reads 0x00. -/
theorem Memory.read_eq_zero_of_wfFrom {lo : Nat} (hm : Memory.wfFrom lo m = true) (ha : a < lo) : m.read a = 0#8 := by
  induction m generalizing lo with
  | nil => rfl
  | cons c m ih =>
    obtain ⟨hlo, -, -, htail⟩ := Memory.wfFrom_cons.1 hm
    have hk : c.1 ≠ a := by omega
    simpa [Memory.read, hk] using ih htail (by omega)

theorem Memory.read_head_ne_zero {lo k : Nat} {b : Byte} (hm : Memory.wfFrom lo ((k, b) :: m) = true) :
    k < 256 ∧ Memory.read ((k, b) :: m) k ≠ 0#8 := by
  obtain ⟨-, hk, hb, -⟩ := Memory.wfFrom_cons.1 hm
  exact ⟨hk, by simpa [Memory.read] using hb⟩

/-- Of two canonical lists that read alike, neither starts at an index below the other's first one: it would read a
byte other than 0x00 where the other reads 0x00. -/
theorem Memory.head_le_of_read_eq {k k' : Nat} {b b' : Byte} {lo lo' : Nat}
    (hm : Memory.wfFrom lo ((k, b) :: m) = true) (hm' : Memory.wfFrom lo' ((k', b') :: m') = true)
    (h : ∀ a, a < 256 → Memory.read ((k, b) :: m) a = Memory.read ((k', b') :: m') a) : k' ≤ k := by
  by_contra! hlt
  obtain ⟨-, hfrom⟩ := Memory.wfFrom_cons.1 hm'
  have hzero : Memory.read ((k', b') :: m') k = 0#8 :=
    Memory.read_eq_zero_of_wfFrom (Memory.wfFrom_cons.2 ⟨le_refl k', hfrom⟩) hlt
  obtain ⟨hk, hne⟩ := Memory.read_head_ne_zero hm
  exact hne ((h k hk).trans hzero)

/-- Two canonical lists that read alike below 256 are equal: their heads have the same index by `head_le_of_read_eq`
both ways round, hence the same byte, and their tails read alike. -/
theorem Memory.eq_of_read_eq {lo lo' : Nat} (hm : Memory.wfFrom lo m = true) (hm' : Memory.wfFrom lo' m' = true)
    (h : ∀ a, a < 256 → m.read a = m'.read a) : m = m' := by
  induction m generalizing m' lo lo' with
  | nil =>
    cases m' with
    | nil => rfl
    | cons c' m' =>
      obtain ⟨hk, hne⟩ := Memory.read_head_ne_zero hm'
      exact absurd (h _ hk).symm hne
  | cons c m ih =>
    cases m' with
    | nil =>
      obtain ⟨hk, hne⟩ := Memory.read_head_ne_zero hm
      exact absurd (h _ hk) hne
    | cons c' m' =>
      obtain ⟨k, b⟩ := c
      obtain ⟨k', b'⟩ := c'
      obtain rfl : k = k' :=
        le_antisymm (Memory.head_le_of_read_eq hm' hm fun a ha => (h a ha).symm) (Memory.head_le_of_read_eq hm hm' h)
      obtain ⟨-, hk, -, htail⟩ := Memory.wfFrom_cons.1 hm
      obtain ⟨-, -, -, htail'⟩ := Memory.wfFrom_cons.1 hm'
      obtain rfl : b = b' := by simpa [Memory.read] using h k hk
      have htails : ∀ a, a < 256 → Memory.read m a = Memory.read m' a := by
        intro a ha
        by_cases hka : k = a
        · rw [Memory.read_eq_zero_of_wfFrom htail (by omega), Memory.read_eq_zero_of_wfFrom htail' (by omega)]
        · simpa [Memory.read, hka] using h a ha
      rw [ih htail htail' htails]

end

end Sys2Proof.Machine

/-! PROOFS. The two windows of the host port, and what repeating a store does. -/

namespace Sys2Proof.Machine

/-! ### The windows by their addresses (R41) -/

section
variable {i : Nat}

theorem portTarget_inWindow (hi : i < 256) : portTarget (BitVec.ofNat 10 (0x100 + i)) = .inByte i := by
  have ha : (BitVec.ofNat 10 (0x100 + i)).toNat = 0x100 + i := Nat.mod_eq_of_lt (by omega)
  rw [portTarget, ha, if_neg (by omega), if_pos (by omega), Nat.add_sub_cancel_left]

theorem portTarget_outWindow (hi : i < 256) : portTarget (BitVec.ofNat 10 (0x200 + i)) = .outByte i := by
  have ha : (BitVec.ofNat 10 (0x200 + i)).toNat = 0x200 + i := Nat.mod_eq_of_lt (by omega)
  rw [portTarget, ha, if_neg (by omega), if_neg (by omega), if_pos (by omega), Nat.add_sub_cancel_left]

end

section
variable {s : State} {a : PortAddr} {v : Word} {rest : List HostEvent}

theorem hostRead_toNat_of_inByte {i : Nat} (h : portTarget a = .inByte i) :
    (hostRead a s).toNat = (s.inBuf.read i).toNat := by
  rw [hostRead, h]
  exact BitVec.toNat_setWidth_of_le (by decide)

theorem hostRead_toNat_of_outByte {i : Nat} (h : portTarget a = .outByte i) :
    (hostRead a s).toNat = (s.outBuf.read i).toNat := by
  rw [hostRead, h]
  exact BitVec.toNat_setWidth_of_le (by decide)

/-- What a read returns does not depend on the host's side of the port. -/
@[simp] theorem hostRead_setPending : hostRead a (s.setPending rest) = hostRead a s := by
  unfold hostRead
  cases portTarget a with
  | reg r => cases r <;> rfl
  | _ => rfl

/-- A step on a write to what is not CMD stores by the rule of its target. -/
theorem step_writeTarget {p : PortTarget} (h : s.pending = .write a v :: rest) (hp : portTarget a = p)
    (hne : p ≠ .reg .cmd) : step s = .next (storeAt p v (s.setPending rest)) := by
  have ha : a ≠ 0x000#10 := fun h0 => hne (hp.symm.trans (portTarget_eq_cmd.2 h0))
  rw [step_of_cons h, transact, hostWrite_other ha, hp]

end

/-! ### A store that is repeated (R52) -/

theorem Status.writeOneToClear_idem (st : Status) (v : Word) :
    (st.writeOneToClear v).writeOneToClear v = st.writeOneToClear v := by
  simp [Status.writeOneToClear]

theorem writeReg_idem (r : Reg) (v : Word) (s : State) : writeReg r v (writeReg r v s) = writeReg r v s := by
  cases r with
  | status => exact congrArg s.setStatus (s.status.writeOneToClear_idem v)
  | _ => rfl

theorem storeAt_idem (p : PortTarget) (v : Word) (s : State) : storeAt p v (storeAt p v s) = storeAt p v s := by
  cases p with
  | reg r => exact writeReg_idem r v s
  | inByte i => exact congrArg s.setIn (Memory.write_write _ _)
  | outByte i => rfl
  | unmapped => rfl

end Sys2Proof.Machine

/-! PROOFS. What a command does when the contents of IN are exchanged: `SameBut m r r'`, kept by each way a command
ends, and the reads of IN that the check of R49 makes safe. -/

namespace Sys2Proof.Machine

/-- The results `r` and `r'` are the same state but for the contents of IN, which in `r'` are `m`. -/
def SameBut (m : Memory) (r r' : Result) : Prop := ∃ t : State, r = .next t ∧ r' = .next (t.setIn m)

/-! ### The ways a command ends -/

section
variable {m : Memory} {s : State}

theorem sameBut_raise (e : ResultCode) : SameBut m (raise e s) (raise e (s.setIn m)) := ⟨_, rfl, rfl⟩

theorem sameBut_complete : SameBut m (complete s) (complete (s.setIn m)) := ⟨_, rfl, rfl⟩

/-- The append to OUT neither reads nor writes IN. -/
theorem outAppend_setIn (bs : List Byte) : (s.setIn m).outAppend bs = (s.outAppend bs).map (State.setIn · m) := by
  by_cases h : s.outLen.val + bs.length ≤ 256
  · rw [outAppend_of_le h, outAppend_of_le (s := s.setIn m) h]
    rfl
  · rw [outAppend_of_gt (Nat.lt_of_not_le h), outAppend_of_gt (s := s.setIn m) (Nat.lt_of_not_le h)]
    rfl

theorem sameBut_appendOrOvf (bs : List Byte) : SameBut m (appendOrOvf bs s) (appendOrOvf bs (s.setIn m)) := by
  unfold appendOrOvf
  rw [outAppend_setIn]
  cases s.outAppend bs with
  | some u => exact sameBut_complete
  | none => exact sameBut_raise .ovf

/-- Behind the check of R49 only the case where it holds matters. -/
theorem sameBut_guarded {ok : Bool} {r r' : Result} (h : ok = true → SameBut m r r') :
    SameBut m (if ok then r else raise .trunc s) (if ok then r' else raise .trunc (s.setIn m)) := by
  cases ok with
  | true => exact h rfl
  | false => exact sameBut_raise .trunc

/-- WDEC depends on IN through the characters it decodes only. -/
theorem sameBut_execWdec {off cnt : Byte}
    (h : s.inputHolds (operand off) (operand cnt) = true →
      wideDecode ((s.setIn m).inBytes (operand off) (operand cnt)) =
        wideDecode (s.inBytes (operand off) (operand cnt))) :
    SameBut m (execWdec off cnt s) (execWdec off cnt (s.setIn m)) := by
  have hholds : (s.setIn m).inputHolds (operand off) (operand cnt) = s.inputHolds (operand off) (operand cnt) := rfl
  unfold execWdec
  rw [hholds, State.setIn_ctrl]
  cases hok : s.inputHolds (operand off) (operand cnt) with
  | false => exact sameBut_raise .trunc
  | true =>
    rw [h hok, outAppend_setIn]
    cases oddCount cnt && !s.ctrl.oddMode with
    | true => exact sameBut_raise .oddlen
    | false =>
      cases s.outAppend (wideDecode (s.inBytes (operand off) (operand cnt))) with
      | none => exact sameBut_raise .ovf
      | some u =>
        cases oddCount cnt with
        | true => exact sameBut_complete (s := u.markOddDrop)
        | false => exact sameBut_complete

end

/-! ### Reads of valid input (R49) -/

section
variable {m : Memory} {s : State} (h : ∀ a, a < s.inLen.val → m.read a = s.inBuf.read a)
include h

theorem inByte_setIn {a : Nat} (ha : a < s.inLen.val) : (s.setIn m).inByte a = s.inByte a := h a ha

theorem inBytes_setIn {off n : Nat} (hn : off + n ≤ s.inLen.val) : (s.setIn m).inBytes off n = s.inBytes off n :=
  Memory.readBytes_congr fun i hi => h (off + i) (by omega)

theorem inBe16_setIn {a : Nat} (ha : a + 2 ≤ s.inLen.val) : (s.setIn m).inBe16 a = s.inBe16 a := by
  simp (disch := omega) only [State.inBe16, inByte_setIn h]

theorem inBe32_setIn {a : Nat} (ha : a + 4 ≤ s.inLen.val) : (s.setIn m).inBe32 a = s.inBe32 a := by
  simp (disch := omega) only [State.inBe32, inByte_setIn h]

theorem inAddr_setIn {a : Nat} (ha : a + 6 ≤ s.inLen.val) : (s.setIn m).inAddr a = s.inAddr a := by
  simp (disch := omega) only [State.inAddr, inByte_setIn h]

theorem inHdr_setIn {a : Nat} (ha : a + Config.hdrBytes ≤ s.inLen.val) : (s.setIn m).inHdr a = s.inHdr a := by
  rw [Config.hdrBytes] at ha
  simp (disch := omega) only [State.inHdr, inByte_setIn h, inBe16_setIn h, inBe32_setIn h, inAddr_setIn h]

/-- A command run from two states that differ only in bytes of IN at or above IN_LEN: the four that read IN do so
behind the check of R49. -/
theorem sameBut_exec (i : Instr) : SameBut m (exec i s) (exec i (s.setIn m)) := by
  cases i with
  | nop => exact sameBut_complete
  | fdec off =>
    refine sameBut_guarded fun hok => ?_
    rw [inBe32_setIn h ((inputHolds_iff _ _ _).1 hok)]
    exact sameBut_complete (s := s.setF _)
  | fenc => exact sameBut_appendOrOvf _
  | wenc off cnt =>
    refine sameBut_guarded fun hok => ?_
    rw [inBytes_setIn h ((inputHolds_iff _ _ _).1 hok)]
    exact sameBut_appendOrOvf _
  | wdec off cnt => exact sameBut_execWdec fun hok => by rw [inBytes_setIn h ((inputHolds_iff _ _ _).1 hok)]
  | hpack => exact sameBut_appendOrOvf _
  | hunpack off =>
    refine sameBut_guarded fun hok => ?_
    rw [inHdr_setIn h ((inputHolds_iff _ _ _).1 hok)]
    exact sameBut_complete (s := s.setHdr _)
  | batset chg tol => exact sameBut_complete (s := s.setHdr _)
  | seqinc => exact sameBut_complete (s := s.setHdr _)
  | emit8 imm => exact sameBut_appendOrOvf _
  | oclr => exact sameBut_complete (s := s.setOut _ _)

end

end Sys2Proof.Machine

/-! PROOFS. The statements of 20_memory.md. -/

namespace Sys2Proof.Machine

/-- Settles O11: taking the event off the list does not change the value read (`hostRead_setPending`). -/
theorem hostReadOnlyReplies : Obligations.HostReadOnlyReplies := by
  intro s a rest hp
  rw [step_of_cons hp, transact, hostRead_setPending]
  rfl

/-- Settles O18: the store in the window is one `Memory.write`, whose read laws give the bytes. -/
theorem inputWindowReadsAndWrites : Obligations.InputWindowReadsAndWrites := by
  intro s i hi
  have htarget := portTarget_inWindow hi
  refine ⟨hostRead_toNat_of_inByte htarget, fun v rest hp => ?_⟩
  exact ⟨_, step_writeTarget hp htarget nofun, Memory.read_write_same _ _ _,
    fun a ha => Memory.read_write_other _ _ ha, rfl⟩

/-- Settles O19: an `outByte` target stores nothing. -/
theorem outputWindowIsReadOnly : Obligations.OutputWindowIsReadOnly := by
  intro s i hi
  have htarget := portTarget_outWindow hi
  exact ⟨hostRead_toNat_of_outByte htarget, fun v rest hp => step_writeTarget hp htarget nofun⟩

/-- Settles O22: the write is a store, and `storeAt_idem`. -/
theorem hostWritesAreIdempotent : Obligations.HostWritesAreIdempotent := by
  intro a v s t ha h
  rw [hostWrite_other ha] at h ⊢
  cases h
  rw [storeAt_idem]

/-- Settles O47: `sameBut_exec`, with the exchanged IN written as `setIn`. -/
theorem commandsReadOnlyValidInput : Obligations.CommandsReadOnlyValidInput := fun i _ _ h => sameBut_exec h i

/-- Settles O54: the canonical form from index 0 on, by `Memory.eq_of_read_eq`. -/
theorem canonicalBuffersThatReadAlikeAreEqual : Obligations.CanonicalBuffersThatReadAlikeAreEqual :=
  fun _ _ hm hm' h => Memory.eq_of_read_eq hm hm' h

end Sys2Proof.Machine

/-! PROOFS. The decoder and the encoder: each format's check (R61, R64) and each format's mask (R63) give the fields of
the word, and a word is the word of the command its fields spell. -/

namespace Sys2Proof

/-- The word of four given fields, from the fields (R60). -/
theorem wordOf_eq {w : Word} {o a b c : Byte} (ho : opc w = o) (ha : fa w = a) (hb : fb w = b) (hc : fc w = c) :
    wordOf o a b c = w := by
  rw [← ho, ← ha, ← hb, ← hc, wordOf_fields]

/-! ### The formats read by the decoder (R61) -/

section
variable {w : Word} {i j : Instr} {o : Byte}

theorem ifReservedZero_eq_command {ok : Bool} : ifReservedZero ok w j = .command i ↔ ok = true ∧ j = i := by
  cases ok <;> simp [ifReservedZero]

theorem formatZ_eq_command : formatZ w j = .command i ↔ (fa w = 0#8 ∧ fb w = 0#8 ∧ fc w = 0#8) ∧ j = i := by
  simp [formatZ, ifReservedZero_eq_command, and_assoc]

theorem formatO_eq_command {mk : Byte → Instr} :
    formatO w mk = .command i ↔ (fb w = 0#8 ∧ fc w = 0#8) ∧ mk (fa w) = i := by
  simp [formatO, ifReservedZero_eq_command]

theorem formatM_eq_command {mk : Byte → Byte → Instr} :
    formatM w mk = .command i ↔ fc w = 0#8 ∧ mk (fa w) (fb w) = i := by
  simp [formatM, ifReservedZero_eq_command]

theorem formatB_eq_command {mk : Byte → Byte → Instr} :
    formatB w mk = .command i ↔ fa w = 0#8 ∧ mk (fb w) (fc w) = i := by
  simp [formatB, ifReservedZero_eq_command]

theorem formatI_eq_command {mk : Byte → Instr} :
    formatI w mk = .command i ↔ (fa w = 0#8 ∧ fb w = 0#8) ∧ mk (fc w) = i := by
  simp [formatI, ifReservedZero_eq_command]

/-- A word that passes a format's check is the word of the command read from it. -/
theorem encode_of_formatZ (hj : encode j = wordOf o 0#8 0#8 0#8) (ho : opc w = o) (h : formatZ w j = .command i) :
    encode i = w := by
  obtain ⟨⟨ha, hb, hc⟩, rfl⟩ := formatZ_eq_command.1 h
  exact hj.trans (wordOf_eq ho ha hb hc)

theorem encode_of_formatO {mk : Byte → Instr} (hmk : ∀ off, encode (mk off) = wordOf o off 0#8 0#8) (ho : opc w = o)
    (h : formatO w mk = .command i) : encode i = w := by
  obtain ⟨⟨hb, hc⟩, rfl⟩ := formatO_eq_command.1 h
  exact (hmk _).trans (wordOf_eq ho rfl hb hc)

theorem encode_of_formatM {mk : Byte → Byte → Instr} (hmk : ∀ off cnt, encode (mk off cnt) = wordOf o off cnt 0#8)
    (ho : opc w = o) (h : formatM w mk = .command i) : encode i = w := by
  obtain ⟨hc, rfl⟩ := formatM_eq_command.1 h
  exact (hmk _ _).trans (wordOf_eq ho rfl rfl hc)

theorem encode_of_formatB {mk : Byte → Byte → Instr} (hmk : ∀ chg tol, encode (mk chg tol) = wordOf o 0#8 chg tol)
    (ho : opc w = o) (h : formatB w mk = .command i) : encode i = w := by
  obtain ⟨ha, rfl⟩ := formatB_eq_command.1 h
  exact (hmk _ _).trans (wordOf_eq ho ha rfl rfl)

theorem encode_of_formatI {mk : Byte → Instr} (hmk : ∀ imm, encode (mk imm) = wordOf o 0#8 0#8 imm) (ho : opc w = o)
    (h : formatI w mk = .command i) : encode i = w := by
  obtain ⟨⟨ha, hb⟩, rfl⟩ := formatI_eq_command.1 h
  exact (hmk _).trans (wordOf_eq ho ha hb rfl)

end

/-! ### The masks of the formats (R63) -/

section
variable {w : Word} {o : Byte}

/-- A mask and a match, each given by its fields, select a word field by field. -/
theorem and_wordOf_eq {mo ma mb mc po pa pb pc : Byte} :
    w &&& wordOf mo ma mb mc = wordOf po pa pb pc ↔
      opc w &&& mo = po ∧ fa w &&& ma = pa ∧ fb w &&& mb = pb ∧ fc w &&& mc = pc := by
  rw [eq_iff_fields]
  simp only [opc_and, fa_and, fb_and, fc_and, opc_wordOf, fa_wordOf, fb_wordOf, fc_wordOf]

/-- A field the mask keeps is the match's. -/
theorem kept_field {x p : Byte} (h : x &&& 0xFF#8 = p) : x = p := BitVec.and_allOnes.symm.trans h

theorem wordOf_of_maskZ (h : w &&& 0xFFFFFFFF#32 = wordOf o 0#8 0#8 0#8) : wordOf o 0#8 0#8 0#8 = w :=
  h.symm.trans BitVec.and_allOnes

theorem wordOf_of_maskO (h : w &&& 0xFF00FFFF#32 = wordOf o 0#8 0#8 0#8) : wordOf o (fa w) 0#8 0#8 = w := by
  obtain ⟨ho, -, hb, hc⟩ := and_wordOf_eq (mo := 0xFF#8) (ma := 0#8) (mb := 0xFF#8) (mc := 0xFF#8).1 h
  exact wordOf_eq (kept_field ho) rfl (kept_field hb) (kept_field hc)

theorem wordOf_of_maskM (h : w &&& 0xFF0000FF#32 = wordOf o 0#8 0#8 0#8) : wordOf o (fa w) (fb w) 0#8 = w := by
  obtain ⟨ho, -, -, hc⟩ := and_wordOf_eq (mo := 0xFF#8) (ma := 0#8) (mb := 0#8) (mc := 0xFF#8).1 h
  exact wordOf_eq (kept_field ho) rfl rfl (kept_field hc)

theorem wordOf_of_maskB (h : w &&& 0xFFFF0000#32 = wordOf o 0#8 0#8 0#8) : wordOf o 0#8 (fb w) (fc w) = w := by
  obtain ⟨ho, ha, -, -⟩ := and_wordOf_eq (mo := 0xFF#8) (ma := 0xFF#8) (mb := 0#8) (mc := 0#8).1 h
  exact wordOf_eq (kept_field ho) (kept_field ha) rfl rfl

theorem wordOf_of_maskI (h : w &&& 0xFFFFFF00#32 = wordOf o 0#8 0#8 0#8) : wordOf o 0#8 0#8 (fc w) = w := by
  obtain ⟨ho, ha, hb, -⟩ := and_wordOf_eq (mo := 0xFF#8) (ma := 0xFF#8) (mb := 0xFF#8) (mc := 0#8).1 h
  exact wordOf_eq (kept_field ho) (kept_field ha) (kept_field hb) rfl

end

/-! ### The two round trips -/

/-- Settles O1: the decoder's tests on the opcode pick the command's format, and `encode` has put zero in each field the
format reserves. -/
theorem decodeOfEncodeIsTheCommand : Obligations.DecodeOfEncodeIsTheCommand := by
  intro i
  cases i <;>
    simp [decode, encode, formatZ_eq_command, formatO_eq_command, formatM_eq_command, formatB_eq_command,
      formatI_eq_command]

/-- One test of the decoder on the opcode: if it holds the word is read in the format, else by the tests that follow. -/
theorem encode_of_ite {w : Word} {i : Instr} {o : Byte} {x y : Decoded}
    (hx : opc w = o → x = .command i → encode i = w) (hy : y = .command i → encode i = w)
    (h : (if opc w = o then x else y) = .command i) : encode i = w := by
  by_cases ho : opc w = o
  · exact hx ho ((if_pos ho).symm.trans h)
  · exact hy ((if_neg ho).symm.trans h)

/-- Settles O2: along the decoder's tests on the opcode, in the order of R63, the format of each row gives the word. -/
theorem encodeOfDecodedIsTheWord : Obligations.EncodeOfDecodedIsTheWord := by
  intro w i
  refine encode_of_ite (encode_of_formatZ rfl) ?_
  refine encode_of_ite (encode_of_formatO fun _ => rfl) ?_
  refine encode_of_ite (encode_of_formatZ rfl) ?_
  refine encode_of_ite (encode_of_formatM fun _ _ => rfl) ?_
  refine encode_of_ite (encode_of_formatM fun _ _ => rfl) ?_
  refine encode_of_ite (encode_of_formatZ rfl) ?_
  refine encode_of_ite (encode_of_formatO fun _ => rfl) ?_
  refine encode_of_ite (encode_of_formatB fun _ _ => rfl) ?_
  refine encode_of_ite (encode_of_formatZ rfl) ?_
  refine encode_of_ite (encode_of_formatI fun _ => rfl) ?_
  refine encode_of_ite (encode_of_formatZ rfl) ?_
  exact nofun

/-- A word decodes to a command iff it is the command's word (R59). -/
theorem decode_eq_command_iff {w : Word} {i : Instr} : decode w = .command i ↔ encode i = w :=
  ⟨encodeOfDecodedIsTheWord w i, fun h => h ▸ decodeOfEncodeIsTheCommand i⟩

/-! ### The opcode map -/

theorem row_mem_opcodeMap (i : Instr) : i.row ∈ opcodeMap := by
  cases i <;> simp [opcodeMap, Instr.row]

theorem exists_row_of_mem_opcodeMap {r : OpRow} (hr : r ∈ opcodeMap) : ∃ i : Instr, i.row = r := by
  simp only [opcodeMap, List.mem_cons, List.not_mem_nil, or_false] at hr
  obtain rfl | rfl | rfl | rfl | rfl | rfl | rfl | rfl | rfl | rfl | rfl := hr <;> exact ⟨_, rfl⟩

/-- The family MatchMask, over all commands. -/
theorem matchMask (i : Instr) : Laws.MatchMask.Statement i := by
  cases i with
  | nop => exact Laws.MatchMask.nop
  | fdec off => exact Laws.MatchMask.fdec off
  | fenc => exact Laws.MatchMask.fenc
  | wenc off cnt => exact Laws.MatchMask.wenc off cnt
  | wdec off cnt => exact Laws.MatchMask.wdec off cnt
  | hpack => exact Laws.MatchMask.hpack
  | hunpack off => exact Laws.MatchMask.hunpack off
  | batset chg tol => exact Laws.MatchMask.batset chg tol
  | seqinc => exact Laws.MatchMask.seqinc
  | emit8 imm => exact Laws.MatchMask.emit8 imm
  | oclr => exact Laws.MatchMask.oclr

/-- A command's row selects the command's word (R63). -/
theorem encode_and_mask (i : Instr) : encode i &&& i.row.mask = i.row.pattern := beq_iff_eq.1 (matchMask i)

/-- A word a command's row selects is the word of a command of that row, with its operands in the fields the mask leaves
free. -/
theorem exists_encode_of_and_mask {j : Instr} {w : Word} (h : w &&& j.row.mask = j.row.pattern) :
    ∃ i, encode i = w ∧ i.row = j.row := by
  cases j with
  | nop => exact ⟨.nop, wordOf_of_maskZ h, rfl⟩
  | fdec => exact ⟨.fdec (fa w), wordOf_of_maskO h, rfl⟩
  | fenc => exact ⟨.fenc, wordOf_of_maskZ h, rfl⟩
  | wenc => exact ⟨.wenc (fa w) (fb w), wordOf_of_maskM h, rfl⟩
  | wdec => exact ⟨.wdec (fa w) (fb w), wordOf_of_maskM h, rfl⟩
  | hpack => exact ⟨.hpack, wordOf_of_maskZ h, rfl⟩
  | hunpack => exact ⟨.hunpack (fa w), wordOf_of_maskO h, rfl⟩
  | batset => exact ⟨.batset (fb w) (fc w), wordOf_of_maskB h, rfl⟩
  | seqinc => exact ⟨.seqinc, wordOf_of_maskZ h, rfl⟩
  | emit8 => exact ⟨.emit8 (fc w), wordOf_of_maskI h, rfl⟩
  | oclr => exact ⟨.oclr, wordOf_of_maskZ h, rfl⟩

/-- Settles O3: both directions through the word of the command. -/
theorem opcodeMapSelectsExactly : Obligations.OpcodeMapSelectsExactly := by
  intro r hr w
  obtain ⟨j, rfl⟩ := exists_row_of_mem_opcodeMap hr
  constructor
  · intro h
    obtain ⟨i, hw, hrow⟩ := exists_encode_of_and_mask h
    exact ⟨i, decode_eq_command_iff.2 hw, hrow⟩
  · rintro ⟨i, hdec, hrow⟩
    rw [← hrow, ← decode_eq_command_iff.1 hdec]
    exact encode_and_mask i

/-- The top byte of a command's word is its row's opcode (R60, R63). -/
theorem encode_opcode (i : Instr) : (encode i).toNat / 2 ^ 24 = i.row.pattern.toNat / 2 ^ 24 := by
  cases i <;> simp only [encode, wordOf_toNat, Instr.row, BitVec.toNat_ofNat] <;> omega

/-- Settles O6: nine literal words, evaluated. -/
theorem sampleWordsDecode : Obligations.SampleWordsDecode := by
  unfold Obligations.SampleWordsDecode
  decide

end Sys2Proof

/-! PROOFS. Words that are no command, and the assembler. -/

namespace Sys2Proof.Machine

/-! ### Illegal words -/

/-- A command that raises an error has failed with its code (R97). -/
theorem epilogue_eq_failed {e : ResultCode} (he : e ≠ .ok) (s : State) : s.epilogue e = s.failed e.code := by
  cases e with
  | ok => exact absurd rfl he
  | trunc | oddlen | ovf | illegal =>
    simp [State.epilogue, State.failed, State.setStatus, Status.afterCommand, ResultCode.code]

/-- A word that is no command's word raises ILLEGAL, with the word in CMD (R35, R68). -/
theorem execute_of_forall_encode_ne {w : Word} (h : ∀ i, encode i ≠ w) (s : State) :
    execute w s = .next ((s.setCmd w).failed 4#4) := by
  cases hd : decode w with
  | command i => exact absurd (decode_eq_command_iff.1 hd) (h i)
  | illegal why =>
    simp only [execute, hd, raise]
    rw [epilogue_eq_failed (by decide), ResultCode.code]

/-- The assigned opcodes (R63). -/
theorem opcode_mem_assigned : ∀ r ∈ opcodeMap,
    r.pattern.toNat / 2 ^ 24 ∈ [0x00, 0x01, 0x02, 0x10, 0x11, 0x20, 0x21, 0x22, 0x23, 0x30, 0x31] := by
  decide

/-- Settles O4: the opcode of a command's word is that of a row of the map, and no row has an opcode in R65's ranges. -/
theorem unassignedOpcodesAreIllegal : Obligations.UnassignedOpcodesAreIllegal := by
  intro s w rest hp hopc
  rw [step_writeCmd hp]
  refine execute_of_forall_encode_ne (fun i hw => ?_) _
  have hmem := opcode_mem_assigned _ (row_mem_opcodeMap i)
  rw [← encode_opcode, hw] at hmem
  simp only [List.mem_cons, List.not_mem_nil, or_false] at hmem
  omega

/-- The opcode tells the rows of the map apart. -/
theorem eq_of_opcode_eq : ∀ r ∈ opcodeMap, ∀ q ∈ opcodeMap,
    r.pattern.toNat / 2 ^ 24 = q.pattern.toNat / 2 ^ 24 → r = q := by
  decide

/-- A match value has no bit below the opcode (R63). -/
theorem pattern_and_operands : ∀ r ∈ opcodeMap, r.pattern &&& 0x00FFFFFF#32 = 0#32 := by
  decide

/-- Settles O5: a command's word with the row's opcode is a word that row selects, so the bits the mask keeps are the
match's, and those below the opcode are zero. -/
theorem nonZeroReservedFieldIsIllegal : Obligations.NonZeroReservedFieldIsIllegal := by
  intro r hr s w rest hp hopc hres
  rw [step_writeCmd hp]
  refine execute_of_forall_encode_ne (fun i hw => hres ?_) _
  have hrow : i.row = r := eq_of_opcode_eq _ (row_mem_opcodeMap i) r hr (by rw [← encode_opcode, hw, hopc])
  rw [← hw, ← hrow, encode_and_mask]
  exact pattern_and_operands _ (row_mem_opcodeMap i)

/-! ### The assembler -/

theorem assembleLine_of_wf {l : AsmLine} (h : l.wf = true) : assembleLine l = some (lineEvents l) := if_pos h

theorem assembleLine_eq_none {l : AsmLine} (h : l.wf = false) : assembleLine l = none := by
  simp [assembleLine, h]

/-- A line in range that stands for one command assembles to one write to CMD of a word that decodes to it (R69). -/
theorem assembleLine_command {l : AsmLine} {i : Instr} (hwf : l.wf = true) (hl : lineEvents l = [commandWrite i]) :
    ∃ w, assembleLine l = some [.write 0x000#10 w] ∧ decode w = .command i :=
  ⟨encode i, (assembleLine_of_wf hwf).trans (congrArg some hl), decodeOfEncodeIsTheCommand i⟩

@[simp] theorem operandFits_eq_true {n : Nat} : operandFits n = true ↔ n < 256 := decide_eq_true_iff

@[simp] theorem operandFits_eq_false {n : Nat} : operandFits n = false ↔ 256 ≤ n := by
  simp [operandFits]

/-- Settles O56: a line with its operands in range stands for its one command; with an operand out of range it is
ill-formed. -/
theorem commandLinesAssemble : Obligations.CommandLinesAssemble := by
  intro a b
  simp only [List.forall_mem_cons, List.not_mem_nil, false_implies, implies_true, and_true]
  refine ⟨fun ha => ?_, fun ha hb => ?_, fun ha => ?_⟩
  · have hwf := operandFits_eq_true.2 ha
    exact ⟨assembleLine_command hwf rfl, assembleLine_command hwf rfl, assembleLine_command hwf rfl,
      assembleLine_command rfl rfl, assembleLine_command rfl rfl, assembleLine_command rfl rfl,
      assembleLine_command rfl rfl, assembleLine_command rfl rfl⟩
  · have hwf : (operandFits a && operandFits b) = true := by simp [ha, hb]
    exact ⟨assembleLine_command hwf rfl, assembleLine_command hwf rfl, assembleLine_command hwf rfl⟩
  · have hone : operandFits a = false := operandFits_eq_false.2 ha
    have hfst : (operandFits a && operandFits b) = false := by simp [hone]
    have hsnd : (operandFits b && operandFits a) = false := by simp [hone]
    exact ⟨assembleLine_eq_none hone, assembleLine_eq_none hone, assembleLine_eq_none hone,
      assembleLine_eq_none hfst, assembleLine_eq_none hfst, assembleLine_eq_none hfst,
      assembleLine_eq_none hsnd, assembleLine_eq_none hsnd, assembleLine_eq_none hsnd⟩

/-- A byte of a number that fits its width (R8). -/
theorem byteAt_ofNat {n v : Nat} (hv : v < 2 ^ n) (k : Nat) :
    (BitVec.ofNat n v).extractLsb' k 8 = BitVec.ofNat 8 (v / 2 ^ k) := by
  apply BitVec.eq_of_toNat_eq
  rw [byteAt_toNat, BitVec.toNat_ofNat, BitVec.toNat_ofNat, Nat.mod_eq_of_lt hv]

/-- Settles O55: the lines are in range, and the operands of the EMIT8s are the big-endian bytes of the value. -/
theorem pseudoInstructionExpansions : Obligations.PseudoInstructionExpansions := by
  refine ⟨fun v hv => ?_, fun v hv => ?_, fun off hoff => ?_, rfl⟩
  · rw [assembleLine_of_wf (l := .emit16 v) (decide_eq_true hv)]
    simp [lineEvents, lineCommands, bytesBe16, byteAt_ofNat hv, commandWrite, regAddr]
  · rw [assembleLine_of_wf (l := .emit32 v) (decide_eq_true hv)]
    simp [lineEvents, lineCommands, bytesBe32, byteAt_ofNat hv, commandWrite, regAddr]
  · exact assembleLine_of_wf (operandFits_eq_true.2 hoff)

end Sys2Proof.Machine

/-! PROOFS. A command's rule in the words the statements use: its words (R63, R64), an append (R50), and success or
failure (R97) on a state as it was. -/

namespace Sys2Proof.Machine

/-! ### A row's words -/

/-- The opcode as a number (R60). -/
theorem opc_toNat (w : Word) : (opc w).toNat = w.toNat / 2 ^ 24 := by
  rw [opc, byteAt_toNat]
  have := w.isLt
  omega

/-- A word with the opcode of a row that the row does not select is no command's word (R64). -/
theorem encode_ne_of_not_selected {j : Instr} {w : Word} (hopc : opc w = opc j.row.pattern)
    (hsel : w &&& j.row.mask ≠ j.row.pattern) (i : Instr) : encode i ≠ w := by
  rintro rfl
  have htop : i.row.pattern.toNat / 2 ^ 24 = j.row.pattern.toNat / 2 ^ 24 := by
    rw [← encode_opcode, ← opc_toNat, ← opc_toNat, hopc]
  have hrow : i.row = j.row := eq_of_opcode_eq _ (row_mem_opcodeMap i) _ (row_mem_opcodeMap j) htop
  exact hsel (hrow ▸ encode_and_mask i)

/-- The encoding part of a command's rule, once `mk` is known to take the operands from each word the row selects. -/
theorem encodedAs_row (j : Instr) {mk : Word → Instr}
    (hmk : ∀ w, w &&& j.row.mask = j.row.pattern → encode (mk w) = w) :
    EncodedAs j.row.pattern j.row.mask mk :=
  ⟨fun w hw => decode_eq_command_iff.2 (hmk w hw),
    fun _ s hsel hopc => execute_of_forall_encode_ne (encode_ne_of_not_selected hopc hsel) s⟩

/-! ### How a command ends -/

theorem complete_eq_ok (s : State) : complete s = .next s.ok := by
  simp [complete, State.epilogue, State.ok, State.setStatus, Status.afterCommand, ResultCode.code]

theorem raise_eq_failed {e : ResultCode} (he : e ≠ .ok) (s : State) : raise e s = .next (s.failed e.code) :=
  congrArg _ (epilogue_eq_failed he s)

section
variable {s t : State} {bs : List Byte}

/-- The bytes fit: they are appended and the command succeeds. -/
theorem appendOrOvf_of_le (h : s.outLen.val + bs.length ≤ 256) :
    ∃ t, appendOrOvf bs s = .next t ∧ Appended s t bs := by
  rw [appendOrOvf, outAppend_of_le h]
  refine ⟨_, complete_eq_ok _, ?_⟩
  exact {
    len := rfl
    bytes := Memory.read_writeBytes_inside bs s.outBuf s.outLen.val
    others := Memory.read_writeBytes_outside bs s.outBuf s.outLen.val
    rest := rfl }

/-- The bytes do not fit: OVF, with nothing written. -/
theorem appendOrOvf_of_gt (h : 256 < s.outLen.val + bs.length) : appendOrOvf bs s = .next (s.failed 3#4) := by
  rw [appendOrOvf, outAppend_of_gt h]
  exact raise_eq_failed (by decide) s

/-- A buffer to which the appended bytes were copied gives them back as a run. -/
theorem Appended.readBytes_of_copied (h : Appended s t bs) {m : Memory} {a : Nat}
    (hcopy : ∀ i, i < bs.length → m.read (a + i) = t.outBuf.read (s.outLen.val + i)) :
    m.readBytes a bs.length = bs := by
  refine List.ext_getElem (Memory.length_readBytes _ _ _) fun i _ hi => ?_
  rw [Memory.getElem_readBytes, hcopy i hi, h.bytes i hi]

end

end Sys2Proof.Machine

/-! PROOFS. The statements of 40_float.md. -/

namespace Sys2Proof.Machine

/-! ### Four bytes and their value -/

/-- A value is determined by its big-endian bytes (R8). -/
theorem bytesBe32_injective : Function.Injective bytesBe32 := by
  intro v w h
  simp only [bytesBe32, List.cons.injEq, and_true] at h
  obtain ⟨h3, h2, h1, h0⟩ := h
  rw [← be32_bytes v, h3, h2, h1, h0, be32_bytes w]

/-- The bytes of the value FDEC loads are the bytes it read (R75). -/
theorem bytesBe32_inBe32 (s : State) (off : Nat) : bytesBe32 (s.inBe32 off) = s.inBytes off 4 :=
  bytesBe32_be32 _ _ _ _

/-! ### FDEC and FENC, case by case -/

section
variable {off : Byte} {s : State}

theorem exec_fdec_of_le (h : off.toNat + 4 ≤ s.inLen.val) :
    exec (.fdec off) s = .next { s.ok with f := s.inBe32 off.toNat } :=
  (if_pos ((inputHolds_iff s off.toNat 4).2 h)).trans (complete_eq_ok _)

theorem exec_fdec_of_gt (h : s.inLen.val < off.toNat + 4) : exec (.fdec off) s = .next (s.failed 1#4) :=
  (if_neg (mt (inputHolds_iff s off.toNat 4).1 (Nat.not_le.2 h))).trans (raise_eq_failed (by decide) s)

theorem exec_fenc_of_le (h : s.outLen.val + 4 ≤ 256) :
    ∃ t, exec .fenc s = .next t ∧ Appended s t (bytesBe32 s.f) :=
  appendOrOvf_of_le h

theorem exec_fenc_of_gt (h : 256 < s.outLen.val + 4) : exec .fenc s = .next (s.failed 3#4) :=
  appendOrOvf_of_gt (bs := bytesBe32 s.f) h

end

/-! ### The statements -/

/-- Settles O24: the check of R49 decides, and the value read is big-endian by `be32_toNat`. -/
theorem fdecLoadsFourBigEndianBytes : Obligations.FdecLoadsFourBigEndianBytes := by
  refine ⟨encodedAs_row (.fdec 0#8) fun _ h => wordOf_of_maskO h, fun off s => ⟨fun h => ?_, exec_fdec_of_gt⟩⟩
  refine ⟨_, exec_fdec_of_le h, ?_⟩
  rw [State.inBe32, be32_toNat]
  simp only [State.inByte]
  omega

/-- Settles O25: FENC is one append of four bytes. -/
theorem fencAppendsFourBigEndianBytes : Obligations.FencAppendsFourBigEndianBytes :=
  ⟨encodedAs_row .fenc fun _ h => wordOf_of_maskZ h, fun _ => ⟨exec_fenc_of_le, exec_fenc_of_gt⟩⟩

/-- Settles O50: one way the bytes of the loaded value are the bytes read; the other way the bytes at OFF are those of
F, which determine it. -/
theorem floatRoundTrip : Obligations.FloatRoundTrip := by
  constructor
  · intro off s hin hout
    obtain ⟨u, hu, happ⟩ :=
      exec_fenc_of_le (s := { s.ok with f := s.inBe32 off.toNat }) (Nat.add_le_add_right hout 4)
    have hread : Appended { s.ok with f := s.inBe32 off.toNat } u (s.inBytes off.toNat 4) :=
      bytesBe32_inBe32 s off.toNat ▸ happ
    exact ⟨_, u, exec_fdec_of_le hin, hu, hread.len,
      fun i hi => (hread.bytes i hi).trans (Memory.getElem_readBytes _ _ _ _ hi)⟩
  · intro off s hout
    obtain ⟨t, ht, happ⟩ := exec_fenc_of_le (s := s) (Nat.add_le_add_right hout 4)
    refine ⟨t, ht, fun c hin hcopy => ⟨_, exec_fdec_of_le hin, bytesBe32_injective ?_⟩⟩
    calc bytesBe32 (c.inBe32 off.toNat)
        = c.inBytes off.toNat 4 := bytesBe32_inBe32 c off.toNat
      _ = bytesBe32 s.f := happ.readBytes_of_copied hcopy

end Sys2Proof.Machine

/-! PROOFS. The statements of 41_wide.md. -/

namespace Sys2Proof.Machine

/-! ### The wide-byte form of a run of IN -/

/-- Decoding undoes encoding (R84). -/
@[simp] theorem wideDecode_wideEncode (cs : List Byte) : wideDecode (wideEncode cs) = cs := by
  induction cs with
  | nil => rfl
  | cons c cs ih => rw [wideEncode, wideDecode, ih]

@[simp] theorem State.length_inBytes (s : State) (off n : Nat) : (s.inBytes off n).length = n :=
  Memory.length_readBytes _ _ _

/-- The number of characters in `n` wide bytes of a buffer (R80). -/
theorem length_wideDecode_readBytes (m : Memory) (a n : Nat) : (wideDecode (m.readBytes a n)).length = n / 2 := by
  rw [length_wideDecode, Memory.length_readBytes]

/-- Character `j` of `n` wide bytes of a buffer is the second byte of pair `j` (R80, R82). -/
theorem getElem_wideDecode_readBytes {m : Memory} {a n j : Nat} (h : j < (wideDecode (m.readBytes a n)).length) :
    (wideDecode (m.readBytes a n))[j] = m.read (a + 2 * j + 1) := by
  have hj : 2 * j + 1 < (m.readBytes a n).length := by
    rw [length_wideDecode] at h
    omega
  rw [List.getElem_eq_iff, getElem_wideDecode j _ hj, Memory.getElem_readBytes, Nat.add_assoc]

/-- The second bytes of the pairs are all that a decoding depends on (R82). -/
theorem wideDecode_readBytes_congr {m m' : Memory} {a n : Nat}
    (h : ∀ j, j < n / 2 → m.read (a + 2 * j + 1) = m'.read (a + 2 * j + 1)) :
    wideDecode (m.readBytes a n) = wideDecode (m'.readBytes a n) := by
  refine List.ext_getElem (by simp only [length_wideDecode_readBytes]) fun j hj _ => ?_
  rw [getElem_wideDecode_readBytes, getElem_wideDecode_readBytes]
  exact h j (by rwa [length_wideDecode_readBytes] at hj)

/-! ### WENC, case by case -/

section
variable {off cnt : Byte} {s : State}

theorem exec_wenc_of_le (hin : off.toNat + cnt.toNat ≤ s.inLen.val) (hout : s.outLen.val + 2 * cnt.toNat ≤ 256) :
    ∃ t, exec (.wenc off cnt) s = .next t ∧ Appended s t (wideEncode (s.inBytes off.toNat cnt.toNat)) := by
  obtain ⟨t, ht, happ⟩ := appendOrOvf_of_le (s := s) (bs := wideEncode (s.inBytes off.toNat cnt.toNat)) (by simpa)
  exact ⟨t, (if_pos ((inputHolds_iff s off.toNat cnt.toNat).2 hin)).trans ht, happ⟩

theorem exec_wenc_of_short (h : s.inLen.val < off.toNat + cnt.toNat) :
    exec (.wenc off cnt) s = .next (s.failed 1#4) :=
  (if_neg (mt (inputHolds_iff s off.toNat cnt.toNat).1 (Nat.not_le.2 h))).trans (raise_eq_failed (by decide) s)

theorem exec_wenc_of_full (hin : off.toNat + cnt.toNat ≤ s.inLen.val) (hout : 256 < s.outLen.val + 2 * cnt.toNat) :
    exec (.wenc off cnt) s = .next (s.failed 3#4) :=
  (if_pos ((inputHolds_iff s off.toNat cnt.toNat).2 hin)).trans (appendOrOvf_of_gt (by simpa))

/-- The two bytes of pair `i` after an append of a wide-byte form (R78). -/
theorem Appended.read_wideEncode {t : State} {cs : List Byte} (h : Appended s t (wideEncode cs)) {i : Nat}
    (hi : i < cs.length) :
    t.outBuf.read (s.outLen.val + 2 * i) = 0x00#8 ∧ t.outBuf.read (s.outLen.val + 2 * i + 1) = cs[i] := by
  obtain ⟨hzero, hchar⟩ := getElem_wideEncode cs i hi
  obtain ⟨hlt, hzero⟩ := List.getElem?_eq_some_iff.1 hzero
  obtain ⟨hlt', hchar⟩ := List.getElem?_eq_some_iff.1 hchar
  exact ⟨(h.bytes _ hlt).trans hzero, (h.bytes _ hlt').trans hchar⟩

end

/-! ### WDEC, case by case -/

/-- The state with ODDDROP set where the count is odd, which a successful WDEC leaves besides what it appends (R81). -/
def State.noteOdd (s : State) (cnt : Byte) : State :=
  s.setStatus { s.status with oddDrop := s.status.oddDrop || decide (cnt.toNat % 2 = 1) }

@[simp] theorem State.noteOdd_outLen (s : State) (cnt : Byte) : (s.noteOdd cnt).outLen = s.outLen := rfl

theorem oddCount_eq (cnt : Byte) : oddCount cnt = decide (cnt.toNat % 2 = 1) := rfl

/-- ODDDROP may be noted before or after the append. -/
theorem markOddDrop_or_keep (s : State) (cnt : Byte) :
    (if oddCount cnt then s.markOddDrop else s) = s.noteOdd cnt := by
  rw [State.noteOdd, ← oddCount_eq]
  cases oddCount cnt <;> simp [State.markOddDrop, State.setStatus]

section
variable {off cnt : Byte} {s : State}

theorem exec_wdec_of_short (h : s.inLen.val < off.toNat + cnt.toNat) :
    exec (.wdec off cnt) s = .next (s.failed 1#4) := by
  have hholds : s.inputHolds (operand off) (operand cnt) = false := decide_eq_false (Nat.not_le.2 h)
  show execWdec off cnt s = _
  rw [execWdec, hholds]
  exact raise_eq_failed (by decide) s

theorem exec_wdec_of_strict (hin : off.toNat + cnt.toNat ≤ s.inLen.val) (hodd : cnt.toNat % 2 = 1)
    (hmode : s.ctrl.oddMode = false) : exec (.wdec off cnt) s = .next (s.failed 2#4) := by
  have hholds : s.inputHolds (operand off) (operand cnt) = true := (inputHolds_iff _ _ _).2 hin
  show execWdec off cnt s = _
  rw [execWdec, hholds, oddCount_eq, hmode, decide_eq_true hodd]
  exact raise_eq_failed (by decide) s

/-- The checks TRUNC and ODDLEN pass. -/
theorem wdec_checks_pass (hin : off.toNat + cnt.toNat ≤ s.inLen.val)
    (hmode : cnt.toNat % 2 = 1 → s.ctrl.oddMode = true) :
    s.inputHolds (operand off) (operand cnt) = true ∧ (oddCount cnt && !s.ctrl.oddMode) = false :=
  ⟨(inputHolds_iff _ _ _).2 hin, by simpa [oddCount_eq] using hmode⟩

theorem exec_wdec_of_le (hin : off.toNat + cnt.toNat ≤ s.inLen.val)
    (hmode : cnt.toNat % 2 = 1 → s.ctrl.oddMode = true) (hout : s.outLen.val + cnt.toNat / 2 ≤ 256) :
    ∃ t, exec (.wdec off cnt) s = .next t ∧
      Appended (s.noteOdd cnt) t (wideDecode (s.inBytes off.toNat cnt.toNat)) := by
  obtain ⟨hholds, hstrict⟩ := wdec_checks_pass hin hmode
  have hfits : s.outLen.val + (wideDecode (s.inBytes (operand off) (operand cnt))).length ≤ 256 := by
    rwa [State.inBytes, length_wideDecode_readBytes]
  obtain ⟨t, ht, happ⟩ := appendOrOvf_of_le (s := s.noteOdd cnt) hfits
  refine ⟨t, ?_, happ⟩
  rw [← ht, appendOrOvf, outAppend_of_le (s := s.noteOdd cnt) hfits]
  show execWdec off cnt s = _
  rw [execWdec, hholds, hstrict, outAppend_of_le hfits]
  exact congrArg complete (markOddDrop_or_keep _ cnt)

theorem exec_wdec_of_full (hin : off.toNat + cnt.toNat ≤ s.inLen.val)
    (hmode : cnt.toNat % 2 = 1 → s.ctrl.oddMode = true) (hout : 256 < s.outLen.val + cnt.toNat / 2) :
    exec (.wdec off cnt) s = .next (s.failed 3#4) := by
  obtain ⟨hholds, hstrict⟩ := wdec_checks_pass hin hmode
  have hfull : 256 < s.outLen.val + (wideDecode (s.inBytes (operand off) (operand cnt))).length := by
    rwa [State.inBytes, length_wideDecode_readBytes]
  show execWdec off cnt s = _
  rw [execWdec, hholds, hstrict, outAppend_of_gt hfull]
  exact raise_eq_failed (by decide) s

end

/-! ### The statements -/

/-- Settles O26: WENC is one append of the wide-byte form, whose pairs `Appended.read_wideEncode` gives. -/
theorem wencAppendsWideBytes : Obligations.WencAppendsWideBytes := by
  refine ⟨encodedAs_row (.wenc 0#8 0#8) fun _ h => wordOf_of_maskM h, fun off cnt s =>
    ⟨fun hin hout => ?_, exec_wenc_of_short, exec_wenc_of_full⟩⟩
  obtain ⟨t, ht, happ⟩ := exec_wenc_of_le hin hout
  have hlen : (wideEncode (s.inBytes off.toNat cnt.toNat)).length = 2 * cnt.toNat := by simp
  refine ⟨t, ht, hlen ▸ happ.len, fun i hi => ?_, hlen ▸ happ.others, happ.rest⟩
  obtain ⟨hzero, hchar⟩ := happ.read_wideEncode (i := i) (by simpa)
  exact ⟨hzero, hchar.trans (Memory.getElem_readBytes _ _ _ _ _)⟩

/-- Settles O27: past the checks WDEC is one append of the decoded characters, with an odd count noted. -/
theorem wdecAppendsSecondBytes : Obligations.WdecAppendsSecondBytes := by
  refine ⟨encodedAs_row (.wdec 0#8 0#8) fun _ h => wordOf_of_maskM h, fun off cnt s =>
    ⟨fun hin hmode hout => ?_, exec_wdec_of_short, exec_wdec_of_strict, exec_wdec_of_full⟩⟩
  obtain ⟨t, ht, happ⟩ := exec_wdec_of_le hin hmode hout
  have hlen : (wideDecode (s.inBytes off.toNat cnt.toNat)).length = cnt.toNat / 2 := length_wideDecode_readBytes _ _ _
  refine ⟨t, ht, hlen ▸ happ.len, fun j hj => ?_, hlen ▸ happ.others, happ.rest⟩
  exact (happ.bytes j (hlen ▸ hj)).trans (getElem_wideDecode_readBytes _)

/-- Settles O48: WDEC depends on IN through the decoded characters only (`sameBut_execWdec`), and these are the second
bytes. -/
theorem wdecIgnoresFirstBytes : Obligations.WdecIgnoresFirstBytes :=
  fun _ _ _ _ h => sameBut_execWdec fun _ => wideDecode_readBytes_congr h

/-- Settles O51: the bytes copied to IN are the wide-byte form of the characters, which `wideDecode_wideEncode` decodes;
their number is even, so neither mode rejects it and ODDDROP is kept. -/
theorem wideRoundTrip : Obligations.WideRoundTrip := by
  intro off n off2 cnt2 s _ hcnt hin hout
  obtain ⟨t, ht, henc⟩ := exec_wenc_of_le hin hout
  refine ⟨t, ht, fun c hin2 hout2 hcopy => ?_⟩
  have heven : cnt2.toNat % 2 ≠ 1 := by omega
  obtain ⟨u, hu, hdec⟩ := exec_wdec_of_le (s := c) hin2 (absurd · heven) (by omega)
  have hlen : (wideEncode (s.inBytes off.toNat n.toNat)).length = cnt2.toNat := by simp [hcnt]
  have hchars : wideDecode (c.inBytes off2.toNat cnt2.toNat) = s.inBytes off.toNat n.toNat := by
    have hbytes := henc.readBytes_of_copied (hlen ▸ hcopy)
    rw [hlen] at hbytes
    rw [State.inBytes, hbytes, wideDecode_wideEncode]
  rw [hchars] at hdec
  refine ⟨u, hu, by simpa using hdec.len, ?_, fun i hi => ?_⟩
  · rw [hdec.rest]
    simp [State.ok, State.noteOdd, heven]
  · exact (hdec.bytes i (by simpa)).trans (Memory.getElem_readBytes _ _ _ _ _)

end Sys2Proof.Machine

/-! PROOFS. The statements of 42_bitfield.md. -/

namespace Sys2Proof.Machine

/-! ### The fixed header region (R85) -/

/-- Runs of bytes that start with an encoding of one fixed length agree iff the encoded values and the rests do. -/
theorem append_inj_of_fixedLength {α : Type} {f : α → List Byte} {n : Nat} (hf : Function.Injective f)
    (hlen : ∀ x, (f x).length = n) {x y : α} {bs cs : List Byte} :
    f x ++ bs = f y ++ cs ↔ x = y ∧ bs = cs := by
  constructor
  · intro h
    obtain ⟨hxy, hrest⟩ := List.append_inj h ((hlen x).trans (hlen y).symm)
    exact ⟨hf hxy, hrest⟩
  · rintro ⟨rfl, rfl⟩
    rfl

/-- A 16-bit value is determined by its big-endian bytes (R8). -/
theorem bytesBe16_injective : Function.Injective bytesBe16 := by
  intro v w h
  simp only [bytesBe16, List.cons.injEq, and_true] at h
  obtain ⟨h1, h0⟩ := h
  rw [← be16_bytes v, h1, h0, be16_bytes w]

theorem be32_toNat_placeValues (b0 b1 b2 b3 : Byte) :
    (be32 b0 b1 b2 b3).toNat = b0.toNat * 2 ^ 24 + b1.toNat * 2 ^ 16 + b2.toNat * 2 ^ 8 + b3.toNat := by
  rw [be32_toNat]
  omega

theorem HwAddr.bytes_injective : Function.Injective HwAddr.bytes := by
  rintro ⟨⟩ ⟨⟩ h
  simpa [HwAddr.bytes] using h

/-- The region determines every field: no two headers have the same 34 bytes. -/
theorem Hdr.bytes_injective : Function.Injective Hdr.bytes := by
  rintro ⟨⟩ ⟨⟩ h
  simpa only [Hdr.bytes, List.append_assoc, List.cons_append, List.nil_append, List.cons.injEq,
    append_inj_of_fixedLength bytesBe16_injective (n := 2) fun _ => rfl,
    append_inj_of_fixedLength HwAddr.bytes_injective (n := 6) fun _ => rfl,
    bytesBe32_injective.eq_iff, Hdr.mk.injEq] using h

/-- The region of the fields loaded from IN is the 34 bytes they were loaded from: it has no unused bit and no bit two
fields share. -/
theorem Hdr.bytes_inHdr (s : State) (off : Nat) : (s.inHdr off).bytes = s.inBytes off 34 := by
  simp only [Hdr.bytes, State.inHdr, State.inBe16, State.inBe32, bytesBe16_be16, bytesBe32_be32]
  rfl

/-! ### HPACK and HUNPACK, case by case -/

section
variable {off : Byte} {s : State}

theorem exec_hpack_of_le (h : s.outLen.val + 34 ≤ 256) : ∃ t, exec .hpack s = .next t ∧ Appended s t s.hdr.bytes :=
  appendOrOvf_of_le h

theorem exec_hpack_of_gt (h : 256 < s.outLen.val + 34) : exec .hpack s = .next (s.failed 3#4) :=
  appendOrOvf_of_gt (bs := s.hdr.bytes) h

theorem exec_hunpack_of_le (h : off.toNat + 34 ≤ s.inLen.val) :
    exec (.hunpack off) s = .next { s.ok with hdr := s.inHdr off.toNat } :=
  (if_pos ((inputHolds_iff s off.toNat 34).2 h)).trans (complete_eq_ok _)

theorem exec_hunpack_of_gt (h : s.inLen.val < off.toNat + 34) : exec (.hunpack off) s = .next (s.failed 1#4) :=
  (if_neg (mt (inputHolds_iff s off.toNat 34).1 (Nat.not_le.2 h))).trans (raise_eq_failed (by decide) s)

end

/-! ### The statements -/

/-- Settles O28: HPACK is one append of the region. -/
theorem hpackAppendsTheFixedRegion : Obligations.HpackAppendsTheFixedRegion :=
  ⟨encodedAs_row .hpack fun _ h => wordOf_of_maskZ h, fun _ => ⟨exec_hpack_of_le, exec_hpack_of_gt⟩⟩

/-- Settles O29: the check of R49 decides, and the fields of several bytes are big-endian by `be16_toNat` and
`be32_toNat_placeValues`. -/
theorem hunpackLoadsTheFixedRegion : Obligations.HunpackLoadsTheFixedRegion := by
  refine ⟨encodedAs_row (.hunpack 0#8) fun _ h => wordOf_of_maskO h, fun off s => ⟨fun h => ?_, exec_hunpack_of_gt⟩⟩
  refine ⟨_, exec_hunpack_of_le h, fun b hb => ?_⟩
  obtain rfl : b = fun i => s.inBuf.read (off.toNat + i) := funext hb
  refine ⟨be16_toNat _ _, rfl, rfl, be16_toNat _ _, rfl, rfl, rfl, rfl, rfl, rfl, rfl, be16_toNat _ _, rfl, rfl, rfl,
    be16_toNat _ _, be32_toNat_placeValues _ _ _ _⟩

/-- Settles O30: the two quotients do not overlap in the packed byte (`packPercent_toNat`). -/
theorem batsetPacksPercent : Obligations.BatsetPacksPercent :=
  ⟨encodedAs_row (.batset 0#8 0#8) fun _ h => wordOf_of_maskB h,
    fun chg tol _ => ⟨packPercent chg tol, complete_eq_ok _, packPercent_toNat chg tol⟩⟩

/-- Settles O32: SEQ is a 16-bit register, whose addition wraps. -/
theorem seqincWrapsModulo65536 : Obligations.SeqincWrapsModulo65536 :=
  ⟨encodedAs_row .seqinc fun _ h => wordOf_of_maskZ h,
    fun s => ⟨s.hdr.seq + 1#16, complete_eq_ok _, BitVec.toNat_add _ _⟩⟩

/-- Settles O52: the bytes at OFF are the region of HDR, which determines it (`Hdr.bytes_injective`). -/
theorem headerPackThenUnpack : Obligations.HeaderPackThenUnpack := by
  intro off s hout
  obtain ⟨t, ht, happ⟩ := exec_hpack_of_le hout
  refine ⟨t, ht, fun c hin hcopy => ⟨_, exec_hunpack_of_le hin, Hdr.bytes_injective ?_⟩⟩
  calc (c.inHdr off.toNat).bytes
      = c.inBytes off.toNat 34 := Hdr.bytes_inHdr c off.toNat
    _ = s.hdr.bytes := happ.readBytes_of_copied hcopy

/-- Settles O53: the region of the loaded header is the 34 bytes read (`Hdr.bytes_inHdr`). -/
theorem headerUnpackThenPack : Obligations.HeaderUnpackThenPack := by
  intro off s hin hout
  obtain ⟨u, hu, happ⟩ := exec_hpack_of_le (s := { s.ok with hdr := s.inHdr off.toNat }) hout
  simp only [Hdr.bytes_inHdr] at happ
  exact ⟨_, u, exec_hunpack_of_le hin, hu, happ.len,
    fun i hi => (happ.bytes i hi).trans (Memory.getElem_readBytes _ _ _ _ hi)⟩

/-- Settles O42: the output buffer is empty after reset, so what HPACK leaves in it is the region of the reset header. -/
theorem hpackAfterReset : Obligations.HpackAfterReset := by
  intro p b
  obtain ⟨t, ht, happ⟩ := exec_hpack_of_le (s := State.resetWith p b) (show 0 + 34 ≤ 256 by decide)
  have hregion : t.outBuf.readBytes 0 34 = (Hdr.resetWith p b).bytes := happ.readBytes_of_copied fun _ _ => rfl
  refine ⟨t, ht, happ.len, hregion.trans ?_⟩
  simp [Hdr.bytes, Hdr.resetWith, HwAddr.bytes, bytesBe16, bytesBe32]

end Sys2Proof.Machine

/-! PROOFS. The statements of 43_output_control.md. -/

namespace Sys2Proof.Machine

/-! ### What makes OUT_LEN smaller (R94) -/

section
variable {i : Instr} {w : Word} {s t u : State}

/-- The writes of a command other than OCLR move OUT_LEN upwards or not at all. -/
theorem Wrote.outLen_le (h : Wrote s i u) (hi : i ≠ .oclr) : s.outLen.val ≤ u.outLen.val := by
  cases h with
  | oclr => exact absurd rfl hi
  | append _ hn | oddWdec _ _ hn => exact hn ▸ Nat.le_add_right _ _
  | _ => exact le_rfl

/-- An execution that leaves OUT_LEN smaller has run OCLR's word. -/
theorem execute_outLen_lt (h : execute w s = .next t) (hlt : t.outLen.val < s.outLen.val) : w = encode .oclr := by
  obtain ⟨e, -, rfl⟩ | ⟨i, u, hdec, hu, rfl⟩ := execute_raises_or_wrote h
  · exact absurd hlt (lt_irrefl _)
  · have hi : i = .oclr := by
      by_contra hne
      exact (hu.outLen_le hne).not_gt hlt
    exact (decode_eq_command_iff.1 (hi ▸ hdec)).symm

/-- A step that leaves OUT_LEN smaller is the write of OCLR's word to CMD, or reset. -/
theorem step_outLen_lt (h : step s = .next t) (hlt : t.outLen.val < s.outLen.val) :
    (∃ rest, s.pending = .write 0x000#10 (encode .oclr) :: rest) ∨ ∃ rest, s.pending = .rst :: rest := by
  obtain ⟨-, rfl⟩ | ⟨a, rest, -, rfl⟩ | ⟨w, rest, hp, hex⟩ | ⟨a, v, rest, -, -, rfl⟩ | ⟨rest, hp, -⟩ := step_cases h
  case inl => exact absurd hlt (lt_irrefl _)
  case inr.inl => exact absurd hlt (lt_irrefl _)
  case inr.inr.inl => exact .inl ⟨rest, execute_outLen_lt hex hlt ▸ hp⟩
  case inr.inr.inr.inl =>
    rw [storeAt_outLen] at hlt
    exact absurd hlt (lt_irrefl _)
  case inr.inr.inr.inr => exact .inr ⟨rest, hp⟩

end

/-! ### EMIT8, case by case -/

section
variable {imm : Byte} {s : State}

theorem exec_emit8_of_le (h : s.outLen.val + 1 ≤ 256) : ∃ t, exec (.emit8 imm) s = .next t ∧ Appended s t [imm] :=
  appendOrOvf_of_le h

theorem exec_emit8_of_full (h : s.outLen.val = 256) : exec (.emit8 imm) s = .next (s.failed 3#4) :=
  appendOrOvf_of_gt (bs := [imm]) (h ▸ Nat.lt_succ_self _)

end

/-! ### The statements -/

/-- Settles O33: EMIT8 is one append of one byte, which fits unless OUT is full. -/
theorem emit8AppendsOneByte : Obligations.Emit8AppendsOneByte :=
  ⟨encodedAs_row (.emit8 0#8) fun _ h => wordOf_of_maskI h, fun _ _ => ⟨exec_emit8_of_le, exec_emit8_of_full⟩⟩

/-- Settles O34: no command but OCLR, and no event but its word and reset, makes OUT_LEN smaller
(`step_outLen_lt`). -/
theorem oclrRestartsOutput : Obligations.OclrRestartsOutput :=
  ⟨encodedAs_row .oclr fun _ h => wordOf_of_maskZ h, fun _ => complete_eq_ok _, fun _ _ => step_outLen_lt⟩

/-- Settles O23: NOP is the epilogue of success on the state as it was. -/
theorem nopReportsSuccess : Obligations.NopReportsSuccess :=
  ⟨encodedAs_row .nop fun _ h => wordOf_of_maskZ h, complete_eq_ok⟩

end Sys2Proof.Machine

/-! PROOFS. The statements of 60_exceptions.md. -/

namespace Sys2Proof.Machine

/-! ### No event stops the machine (R100, R103, R118) -/

theorem exec_next (i : Instr) (s : State) : ∃ t, exec i s = .next t := by
  obtain ⟨e, -, h⟩ | ⟨u, h⟩ := exec_raises_or_completes i s
  · exact ⟨s.epilogue e, h⟩
  · exact ⟨u.epilogue .ok, h⟩

theorem execute_next (w : Word) (s : State) : ∃ t, execute w s = .next t := by
  unfold execute
  split
  · exact exec_next _ _
  · exact ⟨_, rfl⟩

theorem hostWrite_next (a : PortAddr) (v : Word) (s : State) : ∃ t, hostWrite a v s = .next t := by
  by_cases ha : a = 0x000#10
  · rw [ha, hostWrite_cmd]
    exact execute_next v s
  · exact ⟨_, hostWrite_other ha v s⟩

/-! ### What keeps the invariant -/

/-- No code above 4 is produced (R95). -/
theorem ResultCode.code_le_four (e : ResultCode) : e.code.toNat ≤ 4 := by
  cases e <;> decide

section
variable {i : Instr} {w : Word} {s t u : State}

/-- The writes of a command stay inside OUT, so they keep its canonical form. -/
theorem Wrote.outBuf_wf (h : Wrote s i u) (hs : s.outBuf.wf = true) : u.outBuf.wf = true := by
  cases h with
  | @append _ _ n _ hn | @oddWdec _ _ _ n _ _ hn => exact Memory.wf_writeBytes (hn ▸ Nat.le_of_lt_succ n.isLt) hs
  | _ => exact hs

theorem execute_inv (h : execute w s = .next t) (hs : s.Inv) : t.Inv := by
  obtain ⟨e, -, rfl⟩ | ⟨i, u, -, hu, rfl⟩ := execute_raises_or_wrote h
  · exact ⟨hs.inWf, hs.outWf, e.code_le_four⟩
  · exact {
      inWf := hu.inBuf_eq ▸ hs.inWf
      outWf := hu.outBuf_wf hs.outWf
      errLegal := ResultCode.code_le_four .ok }

theorem lt_of_portTarget_inByte {a : PortAddr} {k : Nat} (h : portTarget a = .inByte k) : k < 256 := by
  obtain ⟨r, hr, -⟩ | ⟨j, hj, hr, -⟩ | ⟨j, -, hr, -⟩ | ⟨hr, -⟩ := portTarget_cases a <;> rw [hr] at h <;> cases h
  exact hj

/-- A store through the IN window sets a byte inside IN, and no other store writes IN (R43). -/
theorem storeAt_inBuf_wf (a : PortAddr) (v : Word) (hs : s.inBuf.wf = true) :
    (storeAt (portTarget a) v s).inBuf.wf = true := by
  by_cases hin : ∃ k, portTarget a = .inByte k
  · obtain ⟨k, hk⟩ := hin
    rw [hk]
    exact Memory.wf_write _ (lt_of_portTarget_inByte hk) hs
  · rwa [storeAt_inBuf _ v s (not_exists.1 hin)]

/-- No store writes ERR (R33). -/
theorem storeAt_err (p : PortTarget) (v : Word) (s : State) : (storeAt p v s).status.err = s.status.err := by
  obtain h | ⟨-, h⟩ := storeAt_status p v s
  · rw [h]
  · rw [h, Status.writeOneToClear_err]

theorem storeAt_inv (a : PortAddr) (v : Word) (hs : s.Inv) : (storeAt (portTarget a) v s).Inv where
  inWf := storeAt_inBuf_wf a v hs.inWf
  outWf := (storeAt_outBuf _ v s).symm ▸ hs.outWf
  errLegal := (storeAt_err _ v s).symm ▸ hs.errLegal

/-- Whatever the state was, reset empties both buffers and sets ERR to 0 (R111). -/
theorem assertReset_inv (s : State) : (assertReset s).Inv := ⟨rfl, rfl, Nat.zero_le 4⟩

/-- The host's list of events is no part of the invariant. -/
theorem State.Inv.setPending (hs : s.Inv) (es : List HostEvent) : (s.setPending es).Inv :=
  ⟨hs.inWf, hs.outWf, hs.errLegal⟩

end

/-! ### The code a command ends with (R99) -/

/-- `r` is a next state whose ERR is `c`. -/
def EndsWith (r : Result) (c : BitVec 4) : Prop := ∃ t, r = .next t ∧ t.status.err = c

section
variable {i : Instr} {s : State} {r : Result} {c : BitVec 4}

theorem endsWith_raise (e : ResultCode) (s : State) : EndsWith (raise e s) e.code := ⟨_, rfl, rfl⟩

theorem endsWith_complete (s : State) : EndsWith (complete s) 0#4 := ⟨_, rfl, rfl⟩

/-- An append ends with OVF exactly where the bytes do not fit (R50). -/
theorem endsWith_appendOrOvf {bs : List Byte} {n : Nat} (hn : bs.length = n) :
    EndsWith (appendOrOvf bs s) (if decide (256 < s.outLen.val + n) then 3#4 else 0#4) := by
  subst hn
  by_cases hfull : 256 < s.outLen.val + bs.length
  · rw [decide_eq_true hfull]
    exact ⟨_, appendOrOvf_of_gt hfull, rfl⟩
  · rw [decide_eq_false hfull, appendOrOvf, outAppend_of_le (Nat.not_lt.1 hfull)]
    exact endsWith_complete _

/-- The check of R49 comes first: TRUNC where the input is too short, else what follows decides. -/
theorem endsWith_guarded {off n : Nat} (hr : EndsWith r c) :
    EndsWith (if s.inputHolds off n then r else raise .trunc s)
      (if decide (s.inLen.val < off + n) then 1#4 else c) := by
  by_cases hshort : s.inLen.val < off + n
  · rw [decide_eq_true hshort, State.inputHolds, decide_eq_false (Nat.not_le.2 hshort)]
    exact endsWith_raise .trunc s
  · rw [decide_eq_false hshort, State.inputHolds, decide_eq_true (Nat.not_lt.1 hshort)]
    exact hr

/-- WDEC checks the input, then an odd count against the mode, then the room in OUT. -/
theorem endsWith_exec_wdec (off cnt : Byte) (s : State) :
    EndsWith (exec (.wdec off cnt) s) (reportedCode (.wdec off cnt) s) := by
  by_cases hshort : s.inLen.val < off.toNat + cnt.toNat
  · exact ⟨_, exec_wdec_of_short hshort, by simp [reportedCode, inputShort, hshort, State.failed]⟩
  have hin := Nat.not_lt.1 hshort
  by_cases hstrict : cnt.toNat % 2 = 1 ∧ s.ctrl.oddMode = false
  · obtain ⟨hodd, hmode⟩ := hstrict
    exact ⟨_, exec_wdec_of_strict hin hodd hmode,
      by simp [reportedCode, inputShort, hshort, oddRejected, hodd, hmode, State.failed]⟩
  have hmode : cnt.toNat % 2 = 1 → s.ctrl.oddMode = true := by simpa using hstrict
  have haccept : oddRejected (.wdec off cnt) s = false := by simpa [oddRejected] using hmode
  have hcode : reportedCode (.wdec off cnt) s = if 256 < s.outLen.val + cnt.toNat / 2 then 3#4 else 0#4 := by
    simp [reportedCode, inputShort, hshort, haccept, outputFull]
  by_cases hfull : 256 < s.outLen.val + cnt.toNat / 2
  · exact ⟨_, exec_wdec_of_full hin hmode hfull, by simp [hcode, hfull, State.failed]⟩
  · obtain ⟨t, ht, happ⟩ := exec_wdec_of_le hin hmode (Nat.not_lt.1 hfull)
    refine ⟨t, ht, ?_⟩
    rw [hcode, if_neg hfull, happ.rest]
    rfl

/-- Every command ends with the code its row of R96 gives, in the order of R99. -/
theorem endsWith_exec (i : Instr) (s : State) : EndsWith (exec i s) (reportedCode i s) := by
  cases i with
  | nop => exact endsWith_complete _
  | fdec off => exact endsWith_guarded (endsWith_complete _)
  | fenc => exact endsWith_appendOrOvf rfl
  | wenc off cnt => exact endsWith_guarded (endsWith_appendOrOvf (by simp [operand]))
  | wdec off cnt => exact endsWith_exec_wdec off cnt s
  | hpack => exact endsWith_appendOrOvf rfl
  | hunpack off => exact endsWith_guarded (endsWith_complete _)
  | batset chg tol => exact endsWith_complete _
  | seqinc => exact endsWith_complete _
  | emit8 imm => exact endsWith_appendOrOvf rfl
  | oclr => exact endsWith_complete _

/-- The code does not depend on CMD. -/
@[simp] theorem reportedCode_setCmd (i : Instr) (s : State) (w : Word) :
    reportedCode i (s.setCmd w) = reportedCode i s := by
  cases i <;> rfl

end

/-! ### The statements -/

/-- Settles O38: the cases of a step, each of which keeps the invariant; reset makes it hold. -/
theorem stepKeepsInvariant : Obligations.StepKeepsInvariant := by
  intro s t hs h
  obtain ⟨-, rfl⟩ | ⟨a, rest, -, rfl⟩ | ⟨w, rest, -, hex⟩ | ⟨a, v, rest, -, -, rfl⟩ | ⟨rest, -, rfl⟩ := step_cases h
  case inl => exact hs
  case inr.inl => exact ⟨hs.inWf, hs.outWf, hs.errLegal⟩
  case inr.inr.inl => exact execute_inv hex (hs.setPending rest)
  case inr.inr.inr.inl => exact storeAt_inv a v (hs.setPending rest)
  case inr.inr.inr.inr => exact assertReset_inv _

/-- Settles O35: a word that is no command raises ILLEGAL before anything else is looked at; a command ends with its
reported code by `endsWith_exec`. -/
theorem resultCodeAndPriority : Obligations.ResultCodeAndPriority := by
  intro w s
  cases hd : decode w with
  | command i =>
    obtain ⟨t, ht, herr⟩ := endsWith_exec i (s.setCmd w)
    exact ⟨t, (execute_of_command hd s).trans ht, .inr ⟨i, rfl, herr.trans (reportedCode_setCmd i s w)⟩⟩
  | illegal why =>
    obtain ⟨t, ht, herr⟩ := endsWith_raise .illegal (s.setCmd w)
    exact ⟨t, by rw [execute, hd, ht], .inl ⟨why, rfl, herr⟩⟩

/-- Settles O36: an execution that raised an error left the state as it was but for CMD and the epilogue; one that
succeeded left ERR at 0, and only the WDEC case of `Wrote.oddDrop_cases` sets ODDDROP. -/
theorem epilogueOfEveryCommand : Obligations.EpilogueOfEveryCommand := by
  intro w s t h
  refine ⟨execute_cmd h, ?_⟩
  obtain ⟨e, he, rfl⟩ | ⟨i, u, hdec, hu, rfl⟩ := execute_raises_or_wrote h
  · exact ⟨rfl, fun _ => epilogue_eq_failed he (s.setCmd w), fun hne => absurd rfl hne⟩
  · refine ⟨by simp [hu.anyErr_eq], fun hne => absurd rfl hne, fun hne => ⟨rfl, ?_⟩⟩
    obtain hkeep | ⟨off, cnt, rfl, -, -⟩ := hu.oddDrop_cases
    · exact absurd hkeep hne
    · exact ⟨off, cnt, hdec⟩

/-- Settles O10: with nothing pending a step stays where it is, and each kind of event is answered. -/
theorem everyStepAnswersNext : Obligations.EveryStepAnswersNext := by
  intro s
  cases hp : s.pending with
  | nil => exact ⟨s, step_of_nil hp⟩
  | cons e es =>
    rw [step_of_cons hp]
    cases e with
    | read a => exact ⟨_, rfl⟩
    | write a v => exact hostWrite_next a v _
    | rst => exact ⟨_, rfl⟩

end Sys2Proof.Machine

/-! PROOFS. The statements of 70_reset_and_hazards.md. -/

namespace Sys2Proof.Machine

/-! ### The reset input (R110) -/

section
variable {s : State} {rest : List HostEvent}

/-- A step on the reset input gives the reset state. -/
theorem step_rst (h : s.pending = .rst :: rest) : step s = .next (assertReset (s.setPending rest)) := by
  rw [step_of_cons h, transact]

/-- The reset state with the host's two lists kept. -/
theorem assertReset_eq (s : State) :
    assertReset s =
      { State.resetWith Config.pSysid Config.pBatid with pending := s.pending, replies := s.replies } := rfl

/-- Resetting the reset state changes nothing. -/
theorem assertReset_reset : assertReset State.reset = State.reset := rfl

end

/-! ### What a step leaves of the host's events -/

section
variable {w : Word} {s t : State}

theorem execute_pending (h : execute w s = .next t) : t.pending = s.pending := by
  obtain ⟨e, -, rfl⟩ | ⟨i, u, -, hu, rfl⟩ := execute_raises_or_wrote h
  · rfl
  · exact hu.pending_eq

theorem storeAt_pending (p : PortTarget) (v : Word) (s : State) : (storeAt p v s).pending = s.pending := by
  cases p with
  | reg r => cases r <;> rfl
  | _ => rfl

/-- A step takes the first pending event and adds none. -/
theorem step_pending (h : step s = .next t) : t.pending = s.pending.tail := by
  obtain ⟨hp, rfl⟩ | ⟨a, rest, hp, rfl⟩ | ⟨w, rest, hp, hex⟩ | ⟨a, v, rest, -, hp, rfl⟩ | ⟨rest, hp, rfl⟩ :=
    step_cases h <;> rw [hp]
  case inl => rfl
  case inr.inl => rfl
  case inr.inr.inl => exact execute_pending hex
  case inr.inr.inr.inl => exact storeAt_pending _ v _
  case inr.inr.inr.inr => rfl

end

/-! ### Runs -/

section
variable {s t u : State}

/-- A run goes on from the state its first `k` steps reach. -/
theorem run_add {k : Nat} (m : Nat) (h : core.run k s = .next u) : core.run (k + m) s = core.run m u := by
  induction k generalizing s with
  | zero =>
    cases h
    rw [Nat.zero_add]
  | succ k ih =>
    obtain ⟨v, hv⟩ := everyStepAnswersNext s
    rw [run_succ k hv] at h
    rw [Nat.add_right_comm, run_succ (k + m) hv, ih h]

/-- One more step at the end of a run. -/
theorem run_step {k : Nat} (h : core.run k s = .next u) (hstep : step u = .next t) :
    core.run (k + 1) s = .next t := by
  rw [run_add 1 h, run_succ 0 hstep]
  rfl

/-- What every step keeps, every run keeps. -/
theorem run_keeps {P : State → Prop} (hP : ∀ {s t : State}, step s = .next t → P s → P t) {n : Nat}
    (h : core.run n s = .next t) (hs : P s) : P t := by
  induction n generalizing s with
  | zero =>
    cases h
    exact hs
  | succ n ih =>
    obtain ⟨v, hv⟩ := everyStepAnswersNext s
    rw [run_succ n hv] at h
    exact ih h (hP hv hs)

end

/-! ### Runs in which ANYERR is never cleared (R26, R118) -/

/-- No event to come clears ANYERR. -/
def NoClear (s : State) : Prop := ∀ e ∈ s.pending, clearsAnyErr e = false

section
variable {n k : Nat} {w : Word} {s t u v : State} {rest : List HostEvent}

theorem step_noClear (h : step s = .next t) (hs : NoClear s) : NoClear t := fun e he =>
  hs e (List.mem_of_mem_tail (step_pending h ▸ he))

/-- Where no event to come clears ANYERR, a step that finds it 1 leaves it 1. -/
theorem step_anyErr (h : step s = .next t) (hs : NoClear s) (herr : s.status.anyErr = true) :
    t.status.anyErr = true := by
  by_contra hne
  obtain ⟨e, rest, hp, hclear⟩ := anyErrIsSticky s t h herr (Bool.eq_false_iff.2 hne)
  have hkeep : clearsAnyErr e = false := hs e (hp ▸ List.mem_cons_self)
  exact Bool.false_ne_true (hkeep.symm.trans hclear)

/-- A run in which nothing clears ANYERR ends with it 1 if it begins with it 1. -/
theorem run_anyErr (h : core.run n s = .next t) (hs : NoClear s) (herr : s.status.anyErr = true) :
    t.status.anyErr = true :=
  (run_keeps (P := fun s => NoClear s ∧ s.status.anyErr = true)
    (fun hstep ⟨hnc, hone⟩ => ⟨step_noClear hstep hnc, step_anyErr hstep hnc hone⟩) h ⟨hs, herr⟩).2

/-- If ANYERR is 0 at the end of a run in which nothing clears it, it was 0 in every earlier state of the run. -/
theorem run_earlier_anyErr (hs : NoClear s) (ht : core.run n s = .next t) (hend : t.status.anyErr = false)
    (hk : k ≤ n) (hu : core.run k s = .next u) : u.status.anyErr = false := by
  have hrest : core.run (n - k) u = .next t := by rw [← run_add (n - k) hu, Nat.add_sub_cancel' hk, ht]
  have hnc : NoClear u := run_keeps step_noClear hu hs
  by_contra herr
  have hset : t.status.anyErr = true := run_anyErr hrest hnc (Bool.eq_true_of_not_eq_false herr)
  exact Bool.false_ne_true (hend.symm.trans hset)

/-- A step that executes a command word and leaves ANYERR 0 has left ERR 0 (R97). -/
theorem step_command_err (hp : u.pending = .write 0x000#10 w :: rest) (h : step u = .next v)
    (hv : v.status.anyErr = false) : v.status.err = 0#4 := by
  obtain ⟨-, hany, -⟩ := epilogueOfEveryCommand w _ v ((step_writeCmd hp).symm.trans h)
  have hor := hany.symm.trans hv
  simpa using (Bool.or_eq_false_iff.1 hor).2

end

/-! ### The statements -/

/-- Settles O49: ANYERR is 0 in every state of the run by `run_earlier_anyErr`, the one right after a command
included, so that command left ERR 0 by the epilogue. -/
theorem runEndingCleanHadNoFailure : Obligations.RunEndingCleanHadNoFailure := by
  intro n s t hs ht hend k u hk hu
  refine ⟨run_earlier_anyErr hs ht hend hk hu, fun w rest hlt hp => ?_⟩
  obtain ⟨v, hv⟩ := everyStepAnswersNext u
  exact ⟨v, hv, step_command_err hp hv (run_earlier_anyErr hs ht hend hlt (run_step hu hv))⟩

/-- Settles O39: the reset state is what reset makes of it, and reset makes the invariant hold. -/
theorem resetSatisfiesInvariant : Obligations.ResetSatisfiesInvariant := by
  have hinv := assertReset_inv State.reset
  rwa [assertReset_reset] at hinv

/-- Settles O40: the step on RST, with the state after it written out. -/
theorem resetInputIsAStep : Obligations.ResetInputIsAStep := by
  intro s rest hp
  rw [step_rst hp, assertReset_eq]
  rfl

/-- Settles O41: each register, length and buffer byte of the reset state, by its definition. -/
theorem resetGivesTheResetState : Obligations.ResetGivesTheResetState :=
  ⟨rfl, fun _ _ => ⟨rfl, rfl, rfl, rfl, fun _ => rfl, rfl, fun _ => rfl, rfl, rfl⟩⟩

end Sys2Proof.Machine
